-- ==== Sys2Proof/Word.lean ====
section
/-! DEFINITION. The words of the decoder: the fields and registers that spec/00_scope.md R8 gives a width. -/

namespace Sys2Proof

/-- One stream bit held in a register (`FIRST`, `B1`, `B2`, `STATE`). -/
abbrev Bit := BitVec 1

/-- One byte of the buffer, and one group of a `RUNVAR` (R51, R74). -/
abbrev Byte := BitVec 8

/-- One run length, `RUN_BITS` = 64 (R5, R134). -/
abbrev RunLen := BitVec 64

end Sys2Proof
end

