-- ==== Sys2Proof/Config.lean ====
section
/-! DEFINITION. What an instance fixes (spec/00_scope.md R5), the codes of `PHASE` and `STATUS`
(spec/10_state.md R34, R35), and the free values: what the spec leaves without a value. -/

namespace Sys2Proof

/-- The two parameters R5 leaves open. `none` is the spec's default, "no bound" and "unbounded"
(92_eei_decisions.md D8, D15; assumption 8). -/
structure Config where
  /-- `LEN_MAX`: the largest buffer length a START may give. -/
  lenMax : Option Nat
  /-- `POS_BITS`: the width of `ACC` and of an emitted position. -/
  posBits : Option Nat
deriving DecidableEq, Repr

/-- `SUPPORTED_VERSION` (R5, R116). -/
def Config.supportedVersion : BitVec 2 := 0

/-- `NB_MAX`: the most bits one `NEXTBITS` may ask for (R5, R102). -/
def Config.nbMax : Nat := 32

/-- `VAR_MAX_BYTES`: the most groups of one `RUNVAR` (R5). -/
def Config.varMaxBytes : Nat := 10

/-- `VAR_LAST_MAX`: the largest value of the 10th group (R5, R131). -/
def Config.varLastMax : Byte := 1

/-- `PAD_MAX`: the most bits a `RUNPAD` has after its tag (R5, R105). -/
def Config.padMax : Nat := 7

/-- The length in bits of the longest element, a `RUNVAR` of 10 groups (R74). -/
def Config.longestElement : Nat := 2 + 8 * Config.varMaxBytes

/-- The defaults of the open parameters (R5). -/
def Config.default : Config := ⟨none, none⟩

/-- `len` is a length this instance accepts (R21, R202 (c), D15). -/
def Config.admitsLen (c : Config) (len : Nat) : Bool :=
  match c.lenMax with
  | none => true
  | some m => decide (len ≤ m)

/-- A position counter of this instance can hold `total` (R159, D8). -/
def Config.holdsPosition (c : Config) (total : Nat) : Bool :=
  match c.posBits with
  | none => true
  | some w => decide (total < 2 ^ w)

/-- The four errors of a decode (60_exceptions.md R170). -/
inductive DecodeError where
  | invalidVersion
  | unexpectedEnd
  | runTooLong
  | invalidRun
deriving DecidableEq, Repr, Inhabited

/-- `STATUS`, the outcome kind (R35). The codes 5 to 7 are never taken, so no constructor stands for
them (assumption 21). -/
inductive Status where
  | ok
  | error (e : DecodeError)
deriving DecidableEq, Repr, Inhabited

/-- The 3-bit code of `STATUS` (R35). -/
def Status.code : Status → BitVec 3
  | .ok => 0
  | .error .invalidVersion => 1
  | .error .unexpectedEnd => 2
  | .error .runTooLong => 3
  | .error .invalidRun => 4

/-- `PHASE`, the control state (R34). -/
inductive Phase where
  | idle
  | header
  | runs
  | expand
  | done
deriving DecidableEq, Repr, Inhabited

/-- The 3-bit code of `PHASE` (R34). -/
def Phase.code : Phase → BitVec 3
  | .idle => 0
  | .header => 1
  | .runs => 2
  | .expand => 3
  | .done => 4

/-- The registers that START marks as holding no value (R201), and the model's own result port. -/
inductive Config.Site where
  | version | first | b1 | b2 | vbyte | vidx | vacc | runlen | ridx | acc | state | port
deriving DecidableEq, Repr

/-- FREE VALUE: what a bit register holds after a START and before a rule writes it (R40, 93 U10;
assumption 4). The second argument numbers the STARTs. -/
opaque Config.freeBits : Config.Site → Nat → (w : Nat) → BitVec w

/-- FREE VALUE: what `RIDX` or `ACC` holds after a START and before a rule writes it (R40; assumption 4). -/
opaque Config.freeNat : Config.Site → Nat → Nat

/-- FREE VALUE: what `STATUS` holds from a START until `DONE` (R35, R40, 93 U9; assumption 4). -/
opaque Config.freeStatus : Nat → Status

/-- FREE VALUE: the byte at an address past the host's data when `LEN` is larger than the data
(R202 (b); assumption 10). The first argument numbers the STARTs. -/
opaque Config.freeByte : Nat → Nat → Byte

end Sys2Proof
end

