-- ==== Sys2Proof/Syntax.lean ====
section
/-! DEFINITION. The instructions: the stream elements and the BitCursor's operation, one constructor per
row of spec/opcode_table.json (spec/30_encoding.md R86). -/

namespace Sys2Proof

/-- An element with the fields its encoding carries (30_encoding.md R71 to R75), or `NEXTBITS`. -/
inductive Instr where
  /-- `HDR v, f` (R71). -/
  | hdr (version : BitVec 2) (first : Bit)
  /-- `RUN1` (R72). -/
  | run1
  /-- `RUNLIT n` (R73). -/
  | runlit (lit : BitVec 4)
  /-- `RUNVARB g0, g1, ...`, the groups as they stand in the stream (R74, R83). -/
  | runvar (groups : List Byte)
  /-- `RUNPAD` with `pad` zero bits after its tag (R75). -/
  | runpad (pad : Nat)
  /-- `NEXTBITS(n)`, which has no encoding (40_bitcursor.md R100). -/
  | nextbits (n : Nat)
deriving DecidableEq, Repr

end Sys2Proof
end

