-- ==== Sys2Proof/WellFormed.lean ====
section
/-! DEFINITION. Which instruction terms some stream encodes, and which of those the decoder accepts
without an error. -/

namespace Sys2Proof

/-- The groups of one `RUNVAR` of at most `room` groups: a group with its continuation flag set is
followed by another one, unless it is the last that may be read (R74, R79, R131). -/
def groupsWf : Nat → List Byte → Bool
  | 0, gs => gs.isEmpty
  | _ + 1, [] => false
  | room + 1, g :: gs => if g.msb then groupsWf room gs else gs.isEmpty

/-- The instruction's operands are ones its encoding admits: 1 to 10 groups (R74, R79), 1 to 7 pad bits
(R75), a request of 0 to 32 bits (R100). -/
def Instr.wf : Instr → Bool
  | .hdr _ _ => true
  | .run1 => true
  | .runlit _ => true
  | .runvar groups => groupsWf Config.varMaxBytes groups
  | .runpad pad => decide (1 ≤ pad) && decide (pad ≤ Config.padMax)
  | .nextbits n => decide (n ≤ Config.nbMax)

/-- R74's constraints on a `RUNVAR` that raises no error: `g_9 ≤ 1`, and a terminating group that is
not the first is not `0x00`. -/
def groupsAccepted (gs : List Byte) : Bool :=
  groupsWf Config.varMaxBytes gs
    && (gs.length != Config.varMaxBytes || decide (gs.getLastD 0 ≤ Config.varLastMax))
    && (gs.length == 1 || gs.getLastD 0 != 0)

/-- The instruction is well-formed and none of R80's rows on values rejects it. -/
def Instr.accepted : Instr → Bool
  | .hdr version _ => version == Config.supportedVersion
  | .run1 => true
  | .runlit _ => true
  | .runvar groups => groupsAccepted groups
  | .runpad pad => decide (1 ≤ pad) && decide (pad ≤ Config.padMax)
  | .nextbits n => decide (n ≤ Config.nbMax)

end Sys2Proof
end

