-- ==== Sys2Proof/Decode.lean ====
section
/-! DEFINITION. Reading an element from stream bits, and writing one (spec/30_encoding.md). Bits stand in
stream order, the first consumed bit at the head of the list (spec/00_scope.md R6). -/

namespace Sys2Proof

/-! ### Fields and bits -/

/-- The value of a field: its first bit is the least significant (R7). -/
def natOfBits : List Bool → Nat
  | [] => 0
  | b :: bs => b.toNat + 2 * natOfBits bs

/-- The `w` low bits of `n` in stream order (R7 read backwards). -/
def bitsOfNat : Nat → Nat → List Bool
  | 0, _ => []
  | w + 1, n => (n % 2 == 1) :: bitsOfNat w (n / 2)

/-- A field of `w` bits (R7). -/
def fieldOf (w : Nat) (bits : List Bool) : BitVec w := BitVec.ofNat w (natOfBits bits)

/-- The stream-order bits of a field (R6, R7). -/
def bitsOfField {w : Nat} (v : BitVec w) : List Bool := bitsOfNat w v.toNat

/-- The stream bits of a byte sequence (R6, R54). -/
def bitsOfBytes : List Byte → List Bool
  | [] => []
  | b :: bs => bitsOfField b ++ bitsOfBytes bs

/-- The bytes whose stream bits these are: byte `j` is the sum of `s_(8j+k) * 2^k` (R85). Bits after the
last whole byte are left out. -/
def bytesOfBits : List Bool → List Byte
  | b0 :: b1 :: b2 :: b3 :: b4 :: b5 :: b6 :: b7 :: rest =>
    fieldOf 8 [b0, b1, b2, b3, b4, b5, b6, b7] :: bytesOfBits rest
  | _ => []

/-- The continuation flag of a group, its bit 7 (R74, R38). -/
def contFlag (g : Byte) : Bool := g.msb

/-! ### The decoder -/

/-- Why no whole element stands at the cursor: the read that the end of the stream cuts off (R80 row 4,
R172). A decode raises `UnexpectedEnd` at each of them. -/
inductive Cut where
  /-- The read of `version`. -/
  | version
  /-- The read of `first`, after `version` was read. -/
  | first (version : BitVec 2)
  /-- The read of `B1`. -/
  | tag1
  /-- The read of `B2`, after `B1 = 0`. -/
  | tag2
  /-- The read of the literal, after the tag `0 1`. -/
  | literal
  /-- The read of a group, after the tag `0 0` and the groups `read`, each with its continuation flag. -/
  | group (read : List Byte)
deriving DecidableEq, Repr

/-- The header at stream bit 0 (R71). -/
def decodeHdr : List Bool → Except Cut Instr
  | v0 :: v1 :: f :: _ => .ok (.hdr (fieldOf 2 [v0, v1]) (fieldOf 1 [f]))
  | [v0, v1] => .error (.first (fieldOf 2 [v0, v1]))
  | _ => .error .version

/-- The groups of a `RUNVAR`, at most `room` of them, and whether the last one read ends the element:
its continuation flag is clear, or no further group may be read (R79, R130, R131). -/
def readGroups : Nat → List Bool → List Byte × Bool
  | 0, _ => ([], true)
  | room + 1, b0 :: b1 :: b2 :: b3 :: b4 :: b5 :: b6 :: b7 :: rest =>
    let g := fieldOf 8 [b0, b1, b2, b3, b4, b5, b6, b7]
    if contFlag g then
      let more := readGroups room rest
      (g :: more.1, more.2)
    else ([g], true)
  | _ + 1, _ => ([], false)

/-- `TAILZERO()` on the bits that remain: 1 to 7 of them, all zero (R105). -/
def tailZero (bits : List Bool) : Bool :=
  decide (1 ≤ bits.length) && decide (bits.length ≤ Config.padMax) && bits.all (fun b => !b)

/-- A run element, selected by R76's tree, from all the bits that remain in the stream (or from the next
82 of them, the length of the longest element). -/
def decodeRun : List Bool → Except Cut Instr
  | [] => .error .tag1
  | true :: _ => .ok .run1
  | [false] => .error .tag2
  | false :: true :: l0 :: l1 :: l2 :: l3 :: _ => .ok (.runlit (fieldOf 4 [l0, l1, l2, l3]))
  | false :: true :: _ => .error .literal
  | false :: false :: rest =>
    if tailZero rest then .ok (.runpad rest.length)
    else
      let groups := readGroups Config.varMaxBytes rest
      if groups.2 then .ok (.runvar groups.1) else .error (.group groups.1)

/-- The element as far as the stream holds it. Its unread fields are set to 0: the read of the first of
them raises `UnexpectedEnd`, so no meaning ever looks at that 0 (R100; assumption 14). -/
def Cut.element : Cut → Instr
  | .version => .hdr 0 0
  | .first v => .hdr v 0
  | .tag1 => .run1
  | .tag2 => .runlit 0
  | .literal => .runlit 0
  | .group read => .runvar read

/-- The element to execute: the whole one, or the one that the end of the stream cuts short. -/
def elementOf : Except Cut Instr → Instr
  | .ok i => i
  | .error c => c.element

/-! ### The encoder -/

/-- The stream-order bits of a list of groups (R74). -/
def bitsOfGroups : List Byte → List Bool
  | [] => []
  | g :: gs => bitsOfField g ++ bitsOfGroups gs

/-- The stream-order bits of an element (R71 to R75, R83). `NEXTBITS` is no element and has none (R100). -/
def encode : Instr → List Bool
  | .hdr version first => bitsOfField version ++ bitsOfField first
  | .run1 => [true]
  | .runlit lit => [false, true] ++ bitsOfField lit
  | .runvar groups => [false, false] ++ bitsOfGroups groups
  | .runpad pad => [false, false] ++ List.replicate pad false
  | .nextbits _ => []

/-- The length of an element in bits (R71 to R75). -/
def Instr.bits : Instr → Nat
  | .hdr _ _ => 3
  | .run1 => 1
  | .runlit _ => 6
  | .runvar groups => 2 + 8 * groups.length
  | .runpad pad => 2 + pad
  | .nextbits _ => 0

/-- Groups of 7 bits of `n`, least significant first, at most `more + 1` of them (R84). -/
def groupsOfNat : Nat → Nat → List Byte
  | 0, n => [BitVec.ofNat 8 n]
  | more + 1, n =>
    if n < 128 then [BitVec.ofNat 8 n]
    else BitVec.ofNat 8 (n % 128 + 128) :: groupsOfNat more (n / 128)

/-- The minimal groups of `RUNVAR n` (R84). -/
def minimalGroups (n : RunLen) : List Byte := groupsOfNat 9 n.toNat

/-- `RUN n`, the shortest element that carries `n` (R85). -/
def shortestRun (n : RunLen) : Instr :=
  if n = 1 then .run1
  else if n.toNat ≤ 15 then .runlit (BitVec.ofNat 4 n.toNat)
  else .runvar (minimalGroups n)

/-- One line of the assembler notation (R83, R85). -/
inductive AsmLine where
  /-- `HDR v, f`, `RUN1`, `RUNLIT n`, `RUNVARB g0, ...`. -/
  | element (i : Instr)
  /-- `RUNVAR n`. -/
  | runvar (n : RunLen)
  /-- `RUN n`. -/
  | run (n : RunLen)
  /-- `ZEROS k`. -/
  | zeros (k : Nat)
  /-- `BITS s`. -/
  | bits (s : List Bool)
  /-- `ALIGN`. -/
  | align
deriving DecidableEq, Repr

/-- The bits of a line when `written` bits stand before it (R83, R85). -/
def asmBits (written : Nat) : AsmLine → List Bool
  | .element i => encode i
  | .runvar n => encode (.runvar (minimalGroups n))
  | .run n => encode (shortestRun n)
  | .zeros k => List.replicate k false
  | .bits s => s
  | .align => List.replicate ((8 - written % 8) % 8) false

/-- The bit string of a listing, after the bits already written (R85). -/
def asmListing : List Bool → List AsmLine → List Bool
  | written, [] => written
  | written, l :: ls => asmListing (written ++ asmBits written.length l) ls

/-- The buffer of a listing, if its bits are whole bytes (R85). -/
def assemble (lines : List AsmLine) : Option (List Byte) :=
  let bits := asmListing [] lines
  if bits.length % 8 = 0 then some (bytesOfBits bits) else none

/-! ### A word of the opcode table -/

/-- `k` bytes of `w`, least significant first: bit 0 of the first byte is bit 0 of `w`. -/
def bytesOfWord : Nat → Nat → List Byte
  | 0, _ => []
  | k + 1, w => BitVec.ofNat 8 (w % 256) :: bytesOfWord k (w / 256)

/-- The stream that holds one table word as its only run element: the given bytes, if they hold a whole
element, else the same with zero bytes after them, up to the longest element (assumption 18). -/
def tableStream (nbits w : Nat) : List Byte :=
  let given := bytesOfWord ((nbits + 7) / 8) (w % 2 ^ nbits)
  match decodeRun (bitsOfBytes given) with
  | .ok _ => given
  | .error _ => given ++ List.replicate (11 - given.length) 0

/-- The instruction the decoder reads from a table word. A row of exactly 3 bits is the header's, which
its position selects and no bit of it (R86); every other word stands at a run element's place. -/
def decodeTableWord (nbits w : Nat) : Option Instr :=
  if nbits = 3 then (decodeHdr (bitsOfBytes (bytesOfWord 1 (w % 8)))).toOption
  else (decodeRun (bitsOfBytes (tableStream nbits w))).toOption

end Sys2Proof
end

