-- ==== Sys2Proof/Machine/State.lean ====
section
/-! DEFINITION. The state of one instance (spec/10_state.md R20), the reasons a step can stop, and the
state after power-on (R41, spec/70_reset_and_hazards.md R200). -/

namespace Sys2Proof.Machine

/-- A `START(BUF, LEN)` that the host has issued (70_reset_and_hazards.md R203): the host's data, and the
length it states, which need not be the data's (R202 (b)). -/
structure StartCommand where
  data : List Byte
  len : Nat
deriving DecidableEq, Repr

/-- Everything R20 gives the machine, under the spec's names, and four fields of the model's own:
`cfg`, `port`, `start` and `draws`. -/
structure State where
  /-- The instance's parameters; no step writes them (R5; assumption 8). -/
  cfg : Config
  /-- `BUF`: the cells of the attached buffer, addresses strictly rising; an unlisted address has no
  value (R21, R52; assumption 11). -/
  buf : List Host.Cell
  /-- `LEN` (R21). -/
  len : Nat
  /-- `POS`, the cursor and program counter (R22, R23). -/
  pos : Nat
  /-- `REM`, the remaining-bit counter (R22). -/
  rem : Nat
  /-- `VERSION` (R24). -/
  version : BitVec 2
  /-- `FIRST` (R25). -/
  first : Bit
  /-- `B1` (R26). -/
  b1 : Bit
  /-- `B2` (R26). -/
  b2 : Bit
  /-- `VBYTE` (R27). -/
  vbyte : Byte
  /-- `VIDX` (R27; 92_eei_decisions.md D2). -/
  vidx : BitVec 4
  /-- `VACC` (R27). -/
  vacc : RunLen
  /-- `RUNLEN` (R28). -/
  runlen : RunLen
  /-- `RUNS` (R29). -/
  runs : List RunLen
  /-- `RIDX` (R30). -/
  ridx : Nat
  /-- `ACC` (R31). -/
  acc : Nat
  /-- `STATE` (R32). -/
  state : Bit
  /-- `OUT` (R33). -/
  out : List Nat
  /-- `PHASE` (R34). -/
  phase : Phase
  /-- `STATUS` (R35). -/
  status : Status
  /-- The BitCursor's 32-bit result port (R100, R102; assumption 12). -/
  port : BitVec 32
  /-- The host's command that the hardware has not yet accepted (assumption 5). -/
  start : Option StartCommand
  /-- How many STARTs have drawn free values (assumption 4). -/
  draws : Nat
deriving DecidableEq, Repr

/-- The ways a step can stop with a fault. -/
inductive Fault where
  /-- Raised by a fetch or a `NEXTBITS` whose `MemRead` falls outside the attached buffer, which has no
  defined result (20_memory.md R52). No decode reaches it. Safe. -/
  | bufferUnreadable
deriving DecidableEq, Repr

/-- The ways a step can be refused. -/
inductive Refusal where
  /-- Raised by an arm of `exec` whose instruction has no meaning; no arm does. Safe. -/
  | notModelled (mnemonic : String)
  /-- Raised by `NEXTBITS(n)` with `n > 32`, to which the spec gives no meaning
  (40_bitcursor.md R102). Safe. -/
  | nextBitsTooWide
  /-- Raised by a START issued while the decoder is busy, a host error outside the spec
  (70_reset_and_hazards.md R206). Safe. -/
  | startWhileBusy
  /-- Raised by a START with `LEN > LEN_MAX` (92_eei_decisions.md D15). Safe. -/
  | bufferTooLong
  /-- Raised by an expansion step whose new `ACC` a finite `POS_BITS` cannot hold
  (43_expander.md R159). Safe. -/
  | positionOverflow
deriving DecidableEq, Repr

/-- The machine after power-on (R41, R200). `PHASE`, `RUNS` and `OUT` are the spec's; every other value
is the model's choice (assumptions 1, 2, 3, 4, 8, 12). -/
def State.reset : State where
  cfg := Config.default
  buf := []
  len := 0
  pos := 0
  rem := 0
  version := 0
  first := 0
  b1 := 0
  b2 := 0
  vbyte := 0
  vidx := 0
  vacc := 0
  runlen := 0
  runs := []
  ridx := 0
  acc := 0
  state := 0
  out := []
  phase := .idle
  status := .ok
  port := 0
  start := none
  draws := 0

end Sys2Proof.Machine
end

