-- ==== Sys2Proof/Machine/Ops.lean ====
section
/-! DEFINITION. The operations every meaning is written over: the buffer (spec/20_memory.md), the
BitCursor (spec/40_bitcursor.md), raising a decode error (spec/60_exceptions.md R176) and START, the one
way on from it (spec/70_reset_and_hazards.md R201). -/

namespace Sys2Proof.Machine

/-! ### The buffer -/

/-- The canonical form of a memory: addresses strictly rising. An unlisted address has no value, so no
entry can equal one (assumption 11). -/
def memoryWf : List Host.Cell → Bool
  | [] => true
  | [_] => true
  | (a, _) :: (b, y) :: m => decide (a < b) && memoryWf ((b, y) :: m)

/-- The byte listed at an address. -/
def memLookup : List Host.Cell → Nat → Option Byte
  | [], _ => none
  | (b, v) :: m, a => if b = a then some v else memLookup m a

/-- `MemRead(a, 1)`: byte `a`, with no value outside `0 .. LEN - 1` (R52). -/
def memRead (m : List Host.Cell) (len a : Nat) : Option Byte :=
  if a < len then memLookup m a else none

/-- The cells of a buffer of `len` bytes handed over by START: the host's data, and past its end whatever
follows it (R202 (b), R203). -/
def attach (data : List Byte) (beyond : Nat → Byte) (len : Nat) : List Host.Cell :=
  (List.range len).map fun a => (a, data[a]?.getD (beyond a))

/-- `streambit(p)`, bit `p mod 8` of byte `p div 8` (R6, R8). -/
def streamBit (m : List Host.Cell) (len p : Nat) : Option Bool :=
  (memRead m len (p / 8)).map fun b => b.getLsbD (p % 8)

/-- The `n` stream bits from `p` on, in stream order; no value if one of them has none. -/
def streamBits (m : List Host.Cell) (len : Nat) : Nat → Nat → Option (List Bool)
  | _, 0 => some []
  | p, n + 1 =>
    match streamBit m len p, streamBits m len (p + 1) n with
    | some b, some bs => some (b :: bs)
    | _, _ => none

/-! ### Attempts: what may raise -/

/-- A part of an element's pseudocode that may raise (R8, R176): it is done, or an error was raised when
the registers held `s`. -/
inductive Attempt where
  | done (s : State)
  | raised (e : DecodeError) (s : State)
deriving DecidableEq, Repr

/-- The statements after one that may raise: nothing after a raise is done (R8). -/
def Attempt.andThen : Attempt → (State → Attempt) → Attempt
  | .done s, next => next s
  | .raised e s, _ => .raised e s

/-! ### The BitCursor -/

/-- The cursor and the result port after `NEXTBITS(w)` returned `v` (R100). -/
def State.advance (s : State) (w : Nat) (v : BitVec w) : State :=
  { s with pos := s.pos + w, rem := s.rem - w, port := v.setWidth 32 }

/-- `NEXTBITS(w)` where the `w` bits at the cursor are `v`: the guard first, then the cursor (R100). -/
def consume (w : Nat) (v : BitVec w) (s : State) : Attempt :=
  if s.rem < w then .raised .unexpectedEnd s else .done (s.advance w v)

/-- `REM > 0`, "bits remain" (R104). -/
def bitsRemain (s : State) : Bool := decide (0 < s.rem)

/-- `TAILZERO()` at the cursor (R105). It reads no bit unless 1 to 7 remain. -/
def tailZeroAt (s : State) : Bool :=
  if 1 ≤ s.rem ∧ s.rem ≤ Config.padMax then
    match streamBits s.buf s.len s.pos s.rem with
    | some bits => tailZero bits
    | none => false
  else false

/-! ### Raising an error, and the way on -/

/-- Error entry: `RUNS` is discarded, `STATUS` takes the error, `PHASE` becomes `DONE`, nothing else is
written; `OUT` stays as it is, which is empty (R176; assumption 15). There is no handler, no saved context
and no return: R181 leaves START as the only step out of `DONE`. -/
def takeError (e : DecodeError) (s : State) : State :=
  { s with runs := [], status := .error e, phase := .done }

/-- The end of an element: it completed, or it raised and the decode is over (R36 rows 2 to 5). -/
def finish : Attempt → Host.Outcome State Fault Refusal
  | .done s => .next s
  | .raised e s => .next (takeError e s)

/-- START: attach the buffer, a fresh cursor, empty `RUNS` and `OUT`, `PHASE` to `HEADER`; every other
register holds no value any more, that is, a free one (R40, R201; assumption 4). Two States with equal `draws`
draw equal free values, and equal free bytes past the host's data: the spec, which has instances share nothing
(R188), does not say so, and that is the model's choice (DESIGN CHOICE, assumption 28). -/
def startDecode (c : StartCommand) (s : State) : State :=
  { cfg := s.cfg
    buf := attach c.data (Config.freeByte s.draws) c.len
    len := c.len
    pos := 0
    rem := 8 * c.len
    version := Config.freeBits .version s.draws 2
    first := Config.freeBits .first s.draws 1
    b1 := Config.freeBits .b1 s.draws 1
    b2 := Config.freeBits .b2 s.draws 1
    vbyte := Config.freeBits .vbyte s.draws 8
    vidx := Config.freeBits .vidx s.draws 4
    vacc := Config.freeBits .vacc s.draws 64
    runlen := Config.freeBits .runlen s.draws 64
    runs := []
    ridx := Config.freeNat .ridx s.draws
    acc := Config.freeNat .acc s.draws
    state := Config.freeBits .state s.draws 1
    out := []
    phase := .header
    status := Config.freeStatus s.draws
    port := Config.freeBits .port s.draws 32
    start := none
    draws := s.draws + 1 }

end Sys2Proof.Machine
end

