-- ==== Sys2Proof/Machine/Cursor.lean ====
section
/-! DEFINITION. The meaning of `NEXTBITS`, the BitCursor's operation (spec/40_bitcursor.md R100 to R102). -/

namespace Sys2Proof.Machine

/-- `NEXTBITS(n)`: refused above 32 bits (R102); `UnexpectedEnd` with the cursor unmoved when `n > REM`;
else the value of the next `n` bits at the result port (R100; assumptions 12, 13). -/
def execNextbits (n : Nat) (s : State) : Host.Outcome State Fault Refusal :=
  if Config.nbMax < n then .refused .nextBitsTooWide
  else if s.rem < n then .next (takeError .unexpectedEnd s)
  else
    match streamBits s.buf s.len s.pos n with
    | none => .fault .bufferUnreadable
    | some bits => .next (s.advance n (fieldOf n bits))

end Sys2Proof.Machine
end

