-- ==== Sys2Proof/Machine/Operands.lean ====
section
/-! DEFINITION. The operands of the elements: how each field reaches its register (spec/30_encoding.md
R77, R78; spec/41_header.md R115; spec/42_runs.md R125 to R131). -/

namespace Sys2Proof.Machine

/-- `VERSION <- NEXTBITS(2)` (R115). -/
def readVersion (v : BitVec 2) (s : State) : Attempt :=
  (consume 2 v s).andThen fun s => .done { s with version := v }

/-- The version check (R116). -/
def checkVersion (s : State) : Attempt :=
  if s.version = Config.supportedVersion then .done s else .raised .invalidVersion s

/-- `FIRST <- NEXTBITS(1)` (R115, R117). -/
def readFirst (f : Bit) (s : State) : Attempt :=
  (consume 1 f s).andThen fun s => .done { s with first := f }

/-- `B1 <- NEXTBITS(1)` (R126). -/
def readB1 (b : Bit) (s : State) : Attempt :=
  (consume 1 b s).andThen fun s => .done { s with b1 := b }

/-- `B2 <- NEXTBITS(1)` (R127). -/
def readB2 (b : Bit) (s : State) : Attempt :=
  (consume 1 b s).andThen fun s => .done { s with b2 := b }

/-- The two tag bits of an element whose first one is 0 (R125). -/
def readTag (b2 : Bit) (s : State) : Attempt :=
  (readB1 0 s).andThen fun s => readB2 b2 s

/-- `zext_64` of the literal (R77). -/
def literalRun (lit : BitVec 4) : RunLen := lit.setWidth 64

/-- What group `g` adds at index `vidx`: `zext_64(g & 0x7F) << (7 * VIDX)` (R130). -/
def groupShare (g : Byte) (vidx : BitVec 4) : RunLen :=
  (g &&& 0x7F#8).setWidth 64 <<< (7 * vidx.toNat)

/-- The value R78 gives a list of groups: the sum of `(g_i & 0x7F) * 2^(7*i)`. -/
def groupsValue : List Byte → Nat
  | [] => 0
  | g :: gs => (g &&& 0x7F#8).toNat + 128 * groupsValue gs

/-- `VARINT()` from the group at `VIDX` on (R130, R131, R133). Where the groups end and one more is due,
the stream ended there, and its read raises (R172; assumption 14). -/
def varint : List Byte → State → Attempt
  | [], s => .raised .unexpectedEnd s
  | g :: gs, s =>
    (consume 8 g s).andThen fun s =>
      let s := { s with vbyte := g }
      if s.vidx = 9 ∧ Config.varLastMax < g then .raised .runTooLong s
      else
        let s := { s with vacc := s.vacc ||| groupShare g s.vidx }
        if contFlag g then varint gs { s with vidx := s.vidx + 1 }
        else if 1 ≤ s.vidx ∧ g = 0 then .raised .invalidRun s
        else .done s

/-- `RUNLEN <- r`, then `RUNS <- RUNS ++ [RUNLEN]` (R28, R135). -/
def State.withRun (s : State) (r : RunLen) : State :=
  { s with runlen := r, runs := s.runs ++ [r] }

end Sys2Proof.Machine
end

