-- ==== Sys2Proof/Machine/Header.lean ====
section
/-! DEFINITION. The meaning of the header element (spec/41_header.md). -/

namespace Sys2Proof.Machine

/-- `HDR` (R115): read `version`, check it, read `first`, enter the run loop. -/
def execHdr (version : BitVec 2) (first : Bit) (s : State) : Host.Outcome State Fault Refusal :=
  finish <|
    (readVersion version s).andThen fun s =>
      (checkVersion s).andThen fun s =>
        (readFirst first s).andThen fun s => .done { s with phase := .runs }

end Sys2Proof.Machine
end

