-- ==== Sys2Proof/Machine/Runs.lean ====
section
/-! DEFINITION. The meanings of the run elements (spec/42_runs.md): the arms of `RUNSTEP` (R125), each with
its tag reads and the append of its run (R135). -/

namespace Sys2Proof.Machine

/-- `RUN1` (R128). -/
def execRun1 (s : State) : Host.Outcome State Fault Refusal :=
  finish <| (readB1 1 s).andThen fun s => .done (s.withRun 1)

/-- `RUNLIT` (R129). -/
def execRunlit (lit : BitVec 4) (s : State) : Host.Outcome State Fault Refusal :=
  finish <|
    (readTag 1 s).andThen fun s =>
      (consume 4 lit s).andThen fun s => .done (s.withRun (literalRun lit))

/-- `RUNVAR` (R130). -/
def execRunvar (groups : List Byte) (s : State) : Host.Outcome State Fault Refusal :=
  finish <|
    (readTag 0 s).andThen fun s =>
      (varint groups { s with vacc := 0, vidx := 0 }).andThen fun s => .done (s.withRun s.vacc)

/-- `RUNPAD` (R132): after the tag, all that remains is consumed. Its pad length is `REM` there, which is
how the element is selected (R76); the pseudocode reads it from `REM` (assumption 17). -/
def execRunpad (_pad : Nat) (s : State) : Host.Outcome State Fault Refusal :=
  finish <|
    (readTag 0 s).andThen fun s =>
      .done (({ s with pos := s.pos + s.rem, rem := 0 } : State).withRun 0)

end Sys2Proof.Machine
end

