-- ==== Sys2Proof/Machine/Dispatch.lean ====
section
/-! DEFINITION. One arm per instruction, each one call of its meaning. -/

namespace Sys2Proof.Machine

def exec (i : Instr) (s : State) : Host.Outcome State Fault Refusal :=
  match i with
  | .hdr version first => Sys2Proof.Machine.execHdr version first s
  | .run1 => Sys2Proof.Machine.execRun1 s
  | .runlit lit => Sys2Proof.Machine.execRunlit lit s
  | .runvar groups => Sys2Proof.Machine.execRunvar groups s
  | .runpad pad => Sys2Proof.Machine.execRunpad pad s
  | .nextbits n => Sys2Proof.Machine.execNextbits n s

end Sys2Proof.Machine
end

