-- ==== Sys2Proof/Machine/Flags.lean ====
section
/-! DEFINITION. The hardware has no condition codes and no arithmetic flags (spec/10_state.md R38). Its one
flag with an operation of its own is `STATE`, which the expander tests and flips. -/

namespace Sys2Proof.Machine

/-- The current run is a set run (R32). -/
def isSet (state : Bit) : Bool := state == 1

/-- `1 - STATE` (R154). -/
def flipState (state : Bit) : Bit := 1 - state

end Sys2Proof.Machine
end

