-- ==== Sys2Proof/Machine/Expander.lean ====
section
/-! DEFINITION. The SetExpander (spec/43_expander.md): steps 6, 7 and 8 of the state machine. -/

namespace Sys2Proof.Machine

/-- `EXPSTART` (R150). -/
def expandStart (s : State) : State :=
  { s with acc := 0, state := s.first, ridx := 0, phase := .expand }

/-- What a run of `r` emits from position `acc` on (R152). -/
def emitted (state : Bit) (acc r : Nat) : List Nat :=
  if isSet state then List.range' acc r else []

/-- `EXPSTEP` on the run `r` (R151 to R154). -/
def expandRun (r : RunLen) (s : State) : State :=
  { s with
    out := s.out ++ emitted s.state s.acc r.toNat
    acc := s.acc + r.toNat
    state := flipState s.state
    ridx := s.ridx + 1 }

/-- The expander's end: `PHASE` and `STATUS` are written (R155). That the working registers keep their values
at `DONE`, where U10 allows any, is the model's choice (DESIGN CHOICE, assumption 15). -/
def expandEnd (s : State) : State := { s with phase := .done, status := .ok }

/-- The step of `PHASE = EXPAND`: expand the next run, or end (R36 rows 7 and 8). A run that a finite
`POS_BITS` cannot count is refused, never wrapped (R159; assumption 9). -/
def expandNext (s : State) : Host.Outcome State Fault Refusal :=
  match s.runs[s.ridx]? with
  | none => .next (expandEnd s)
  | some r =>
    if s.cfg.holdsPosition (s.acc + r.toNat) then .next (expandRun r s)
    else .refused .positionOverflow

end Sys2Proof.Machine
end

