-- ==== Sys2Proof/Machine/Fetch.lean ====
section
/-! DEFINITION. Fetching the element at the cursor (spec/30_encoding.md R76), and placing a table word
where the next step fetches. -/

namespace Sys2Proof.Machine

/-- The next bits of the stream, at most `most` of them; no value if the buffer lacks one (R52). -/
def window (most : Nat) (s : State) : Option (List Bool) :=
  streamBits s.buf s.len s.pos (min s.rem most)

/-- The header at the cursor, whole or cut short (R71). -/
def fetchHdr (s : State) : Option Instr :=
  (window 3 s).map fun bits => elementOf (decodeHdr bits)

/-- The run element at the cursor, whole or cut short (R76). The window holds the longest element, so
its end is the stream's end whenever the element's selection depends on it (assumption 16). -/
def fetchRun (s : State) : Option Instr :=
  (window Config.longestElement s).map fun bits => elementOf (decodeRun bits)

/-- `s` with a table word as the whole stream, the cursor at its first bit, and the phase in which that
element is fetched (assumption 18). -/
def placeWord (nbits w : Nat) (s : State) : State :=
  let bytes := if nbits = 3 then bytesOfWord 1 (w % 8) else tableStream nbits w
  { s with
    buf := attach bytes (fun _ => 0) bytes.length
    len := bytes.length
    pos := 0
    rem := 8 * bytes.length
    phase := if nbits = 3 then .header else .runs
    start := none }

end Sys2Proof.Machine
end

