-- ==== Sys2Proof/Machine/HostPort.lean ====
section
/-! DEFINITION. The host's side (spec/70_reset_and_hazards.md R203 to R206, spec/10_state.md R37): the
command START and what the host can read. -/

namespace Sys2Proof.Machine

/-- START, accepted unless the buffer is longer than the instance allows (R36 row 1, R201; D15). -/
def acceptStart (c : StartCommand) (s : State) : Host.Outcome State Fault Refusal :=
  if s.cfg.admitsLen c.len then .next (startDecode c s) else .refused .bufferTooLong

/-- The host issues START: the command waits at the port until a step takes it (R203; assumption 5). A second
START issued before that replaces the first one; the spec forbids it and gives it no meaning, so that this
is the model's choice (DESIGN CHOICE, assumption 27). -/
def State.issue (s : State) (c : StartCommand) : State := { s with start := some c }

/-- The outcome of a decode (00_scope.md R9). -/
inductive Result where
  | ok (out : List Nat)
  | err (e : DecodeError)
deriving DecidableEq, Repr

/-- What the host can tell (R37): idle, busy, or done with the outcome. -/
inductive HostView where
  | idle
  | busy
  | done (r : Result)
deriving DecidableEq, Repr

/-- The outcome that `STATUS` and `OUT` stand for; `OUT` is read only when `STATUS = OK` (R37, R204). -/
def resultOf (status : Status) (out : List Nat) : Result :=
  match status with
  | .ok => .ok out
  | .error e => .err e

/-- The host's reading of the machine (R37, R204). -/
def hostView (s : State) : HostView :=
  match s.phase with
  | .idle => .idle
  | .header => .busy
  | .runs => .busy
  | .expand => .busy
  | .done => .done (resultOf s.status s.out)

end Sys2Proof.Machine
end

