-- ==== Sys2Proof/Machine/Control.lean ====
section
/-! DEFINITION. The state machine of spec/10_state.md R36: which row a state takes. -/

namespace Sys2Proof.Machine

/-- Execute the fetched element. -/
def runElement (fetched : Option Instr) (s : State) : Host.Outcome State Fault Refusal :=
  match fetched with
  | none => .fault .bufferUnreadable
  | some i => exec i s

/-- The decoder's own step, with no command at the host's port (R36 rows 2 to 8). In `IDLE` and `DONE` it
has none: the machine waits as it is (R36, R189; assumption 6). -/
def decoderStep (s : State) : Host.Outcome State Fault Refusal :=
  match s.phase with
  | .idle => .next s
  | .header => runElement (fetchHdr s) s
  | .runs => if bitsRemain s then runElement (fetchRun s) s else .next (expandStart s)
  | .expand => expandNext s
  | .done => .next s

/-- A step with the host's START at the port: accepted in `IDLE` and `DONE`, refused while busy
(R36 row 1, R203, R206). -/
def startStep (c : StartCommand) (s : State) : Host.Outcome State Fault Refusal :=
  match s.phase with
  | .idle => acceptStart c s
  | .header => .refused .startWhileBusy
  | .runs => .refused .startWhileBusy
  | .expand => .refused .startWhileBusy
  | .done => acceptStart c s

/-- One step of the machine (R36). -/
def machineStep (s : State) : Host.Outcome State Fault Refusal :=
  match s.start with
  | some c => startStep c s
  | none => decoderStep s

end Sys2Proof.Machine
end

