-- ==== Sys2Proof/Machine/Step.lean ====
section
/-! DEFINITION. The step, and a table word placed where it fetches. -/

namespace Sys2Proof.Machine

/-- One step of the machine (spec/10_state.md R36). -/
def step (s : State) : Host.Outcome State Fault Refusal := machineStep s

/-- `s` with one table word as the next element to fetch. -/
def State.withFetchWord (s : State) (nbits w : Nat) : State := placeWord nbits w s

end Sys2Proof.Machine
end

