-- ==== Sys2Proof/Machine/Reference.lean ====
section
/-! DEFINITION. The whole decode as a function of the buffer (spec/43_expander.md R158), written from the
pseudocode of spec/42_runs.md R125 and R130 over the one big integer of spec/40_bitcursor.md R103, and using
nothing of the machine. Statements compare the machine with it. -/

namespace Sys2Proof.Machine

/-- `N`, the buffer as one integer: the sum of `BUF[j] * 256^j` (R7, R103). -/
def bigNat : List Byte → Nat
  | [] => 0
  | b :: bs => b.toNat + 256 * bigNat bs

/-- `NEXTBITS(n)` on the buffer `N` at `POS = pos`, `REM = rem`: the value, or nothing (R100, R103). -/
def refNextBits (N n pos rem : Nat) : Option Nat :=
  if n ≤ rem then some (N / 2 ^ pos % 2 ^ n) else none

/-- `VARINT()` (R130): `left` more groups may be read, `10 - left` have been. It gives the run length and
the number of bits its groups took. -/
def refVarint (N : Nat) : Nat → Nat → Nat → Nat → Except DecodeError (Nat × Nat)
  | 0, _, _, _ => .error .runTooLong
  | left + 1, vacc, pos, rem =>
    match refNextBits N 8 pos rem with
    | none => .error .unexpectedEnd
    | some g =>
      let vidx := 9 - left
      if vidx = 9 ∧ 1 < g then .error .runTooLong
      else
        let vacc := vacc + g % 128 * 2 ^ (7 * vidx)
        if 128 ≤ g then
          match refVarint N left vacc (pos + 8) (rem - 8) with
          | .ok (r, n) => .ok (r, n + 8)
          | .error e => .error e
        else if 1 ≤ vidx ∧ g = 0 then .error .invalidRun
        else .ok (vacc, 8)

/-- `RUNSTEP` (R125): the run length and the number of bits of the element. -/
def refRunStep (N pos rem : Nat) : Except DecodeError (Nat × Nat) :=
  match refNextBits N 1 pos rem with
  | none => .error .unexpectedEnd
  | some 0 =>
    match refNextBits N 1 (pos + 1) (rem - 1) with
    | none => .error .unexpectedEnd
    | some 0 =>
      if 1 ≤ rem - 2 ∧ rem - 2 ≤ 7 ∧ N / 2 ^ (pos + 2) % 2 ^ (rem - 2) = 0 then .ok (0, rem)
      else
        match refVarint N 10 0 (pos + 2) (rem - 2) with
        | .ok (r, n) => .ok (r, n + 2)
        | .error e => .error e
    | some _ =>
      match refNextBits N 4 (pos + 2) (rem - 2) with
      | none => .error .unexpectedEnd
      | some lit => .ok (lit, 6)
  | some _ => .ok (1, 1)

/-- The run loop, `while REM > 0 do RUNSTEP` (R136), for at most `most` elements. -/
def refRuns (N : Nat) : Nat → Nat → Nat → Except DecodeError (List Nat)
  | 0, _, _ => .ok []
  | most + 1, pos, rem =>
    if rem = 0 then .ok []
    else
      match refRunStep N pos rem with
      | .error e => .error e
      | .ok (r, n) =>
        match refRuns N most (pos + n) (rem - n) with
        | .error e => .error e
        | .ok rs => .ok (r :: rs)

/-- The set that a run sequence describes, from position `acc` and state `set` on (R151, R158). -/
def refExpand : Nat → Bool → List Nat → List Nat
  | _, _, [] => []
  | acc, set, r :: rs => (if set then List.range' acc r else []) ++ refExpand (acc + r) (!set) rs

/-- The header and the run loop of `decode(buf)` (R158): `first` and the run sequence. Each element takes a
bit at least, so the loop needs no more iterations than there are bits (R136, R139). -/
def refParse (data : List Byte) : Except DecodeError (Nat × List Nat) :=
  let N := bigNat data
  let rem := 8 * data.length
  match refNextBits N 2 0 rem with
  | none => .error .unexpectedEnd
  | some 0 =>
    match refNextBits N 1 2 (rem - 2) with
    | none => .error .unexpectedEnd
    | some first =>
      match refRuns N rem 3 (rem - 3) with
      | .error e => .error e
      | .ok rs => .ok (first, rs)
  | some _ => .error .invalidVersion

/-- `decode(buf)` (R158). -/
def refDecode (data : List Byte) : Result :=
  match refParse data with
  | .error e => .err e
  | .ok (first, rs) => .ok (refExpand 0 (decide (first = 1)) rs)

/-- The final `ACC` of a decode, the sum of its runs (R153); 0 for a decode that ends in an error. -/
def refTotal (data : List Byte) : Nat :=
  match refParse data with
  | .error _ => 0
  | .ok (_, rs) => rs.sum

end Sys2Proof.Machine
end

