-- ==== Sys2Proof/Safety.lean ====
section
/-! DEFINITION. What the statements speak of: the invariants of a run, and what the host sees of one. -/

namespace Sys2Proof.Safety

open Sys2Proof.Machine

/-- The decoder is between START and `DONE` (spec/10_state.md R36, R37). -/
def busy (s : State) : Bool :=
  match s.phase with
  | .idle => false
  | .header => true
  | .runs => true
  | .expand => true
  | .done => false

/-- The hardware accepts a START here (spec/70_reset_and_hazards.md R203). -/
def startable (s : State) : Bool := !busy s

/-- `POS + REM = 8*LEN` (spec/10_state.md R22). -/
def CursorInv (s : State) : Prop := s.pos + s.rem = 8 * s.len

/-- The buffer is whole: every address below `LEN` has a byte (spec/20_memory.md R52); and it is in the
canonical form that the model chose for its memory (DESIGN CHOICE, assumption 11). -/
def BufferInv (s : State) : Prop :=
  memoryWf s.buf = true ∧ ∀ a, a < s.len → (memRead s.buf s.len a).isSome

/-- How many runs there can be at each phase: none before the loop, and then one for each bit after the
header at most (spec/42_runs.md R139, spec/41_header.md R115). -/
def RunsInv (s : State) : Prop :=
  match s.phase with
  | .idle => s.runs = []
  | .header => s.pos = 0 ∧ s.runs = []
  | .runs => s.runs.length + 3 ≤ s.pos
  | .expand => s.runs.length + 3 ≤ s.pos ∧ s.rem = 0
  | .done => True

/-- A strictly increasing sequence. -/
def Increasing (out : List Nat) : Prop := out.Pairwise (· < ·)

/-- `OUT` is empty until the expander runs, then strictly increasing and below `ACC`; at `DONE` it is
strictly increasing, and empty after an error (spec/43_expander.md R156, spec/60_exceptions.md R177). -/
def OutInv (s : State) : Prop :=
  match s.phase with
  | .idle => s.out = []
  | .header => s.out = []
  | .runs => s.out = []
  | .expand => Increasing s.out ∧ ∀ x ∈ s.out, x < s.acc
  | .done => Increasing s.out ∧ ∀ e, s.status = .error e → s.out = []

/-- The lengths of the runs the expander has already done. -/
def expandedRuns (s : State) : List Nat := (s.runs.take s.ridx).map BitVec.toNat

/-- While the expander runs: `ACC` is the sum of the runs done, `STATE` has flipped once for each, and
`OUT` is the set they describe (spec/10_state.md R30, R31; spec/43_expander.md R153, R154). Before it
runs, `OUT` is empty. -/
def ExpandInv (s : State) : Prop :=
  match s.phase with
  | .idle => True
  | .header => s.out = []
  | .runs => s.out = []
  | .expand =>
    s.ridx ≤ s.runs.length
      ∧ s.acc = (expandedRuns s).sum
      ∧ (s.state = 1 ↔ (s.first.toNat + s.ridx) % 2 = 1)
      ∧ s.out = refExpand 0 (decide (s.first = 1)) (expandedRuns s)
  | .done => True

/-- `next` may follow `now` in the table of R36, or the machine waits. -/
def phaseMayFollow : Phase → Phase → Bool
  | .idle, .idle => true
  | .idle, .header => true
  | .header, .runs => true
  | .header, .done => true
  | .runs, .runs => true
  | .runs, .expand => true
  | .runs, .done => true
  | .expand, .expand => true
  | .expand, .done => true
  | .done, .done => true
  | .done, .header => true
  | _, _ => false

/-- What the host sees of an outcome: a view of the next state, or that there is none. -/
def seen (o : Host.Outcome State Fault Refusal) : Option HostView :=
  match o with
  | .next s => some (hostView s)
  | .fault _ => none
  | .refused _ => none

/-- `k` steps of the machine. -/
def steps (k : Nat) (s : State) : Host.Outcome State Fault Refusal := Host.Core.run Sys2Proof.core k s

/-- R213's bound on the steps after a START, and the step of the START itself. -/
def stepBound (len : Nat) : Nat := 1 + (2 * (8 * len - 3) + 3)

/-- The run length that an element written in the assembler notation stands for (spec/30_encoding.md R77,
R78, R83). -/
def runLength : Instr → Option Nat
  | .hdr _ _ => none
  | .run1 => some 1
  | .runlit lit => some lit.toNat
  | .runvar groups => some (groupsValue groups)
  | .runpad _ => none
  | .nextbits _ => none

/-- The outcome of an element that raised `e` at `s`: the decode is over, and of what the host may read or
a later decode may use only `PHASE` and `STATUS` changed (spec/60_exceptions.md R176). Nothing is said of
the working registers, which have no meaning at `DONE` (spec/93_implementation_defined.md U10). `cfg`, `start`
and `draws` are the model's own fields (assumptions 8, 5, 4). -/
def EndsWithError (e : DecodeError) (s t : State) : Prop :=
  t.phase = .done ∧ t.status = .error e ∧ t.out = s.out
    ∧ t.buf = s.buf ∧ t.len = s.len ∧ t.cfg = s.cfg ∧ t.start = s.start ∧ t.draws = s.draws

end Sys2Proof.Safety
end

