-- ==== Sys2Proof/Certificates/Slice0/Obligations.lean ====
section
/-! DEFINITION. The statements for the provers. Each docstring names the rules of spec/ it formalises. -/

open Sys2Proof Sys2Proof.Machine Sys2Proof.Safety

/-! ### Reset, START and the host -/

/-- R41, R200: after power-on the machine is in `IDLE` with `RUNS` and `OUT` empty. The other values of
`State.reset` are the model's choice (assumptions 1, 2, 3) and no statement speaks of them. -/
def Obligations.ResetIsIdleAndEmpty : Prop :=
  State.reset.phase = .idle ∧ State.reset.runs = [] ∧ State.reset.out = []
    ∧ hostView State.reset = .idle

/-- The invariants below hold after power-on. That `POS`, `REM`, `LEN` and `BUF` meet theirs rests on the
model's choice of their values at power-on (assumptions 1, 3), and the buffer's canonical form is the model's
own (assumption 11). -/
def Obligations.ResetMeetsInvariants : Prop :=
  CursorInv State.reset ∧ BufferInv State.reset ∧ RunsInv State.reset ∧ OutInv State.reset
    ∧ ExpandInv State.reset

/-- R201: START, accepted in `IDLE` and `DONE`, attaches the buffer and its length, sets `POS = 0`,
`REM = 8*LEN`, empties `RUNS` and `OUT` and enters `HEADER`. (`start` and `cfg` are the model's own
fields: the command is taken, the parameters stay.) -/
def Obligations.StartBeginsAFreshDecode : Prop :=
  ∀ (s : State) (c : StartCommand),
    startable s = true → s.start = some c → s.cfg.admitsLen c.len = true →
    ∃ t, step s = .next t
      ∧ t.len = c.len ∧ t.pos = 0 ∧ t.rem = 8 * c.len ∧ t.runs = [] ∧ t.out = [] ∧ t.phase = .header
      ∧ t.start = none ∧ t.cfg = s.cfg
      ∧ ∀ a, a < c.len → ∀ b, c.data[a]? = some b → memRead t.buf t.len a = some b

/-- R206: a START issued while the decoder is busy is refused. -/
def Obligations.StartWhileBusyIsRefused : Prop :=
  ∀ (s : State) (c : StartCommand),
    busy s = true → s.start = some c → step s = .refused .startWhileBusy

/-- D15 (92_eei_decisions.md): a START with `LEN > LEN_MAX` is refused, and only such a one. -/
def Obligations.StartBeyondLenMaxIsRefused : Prop :=
  ∀ (s : State) (c : StartCommand) (m : Nat),
    startable s = true → s.start = some c → s.cfg.lenMax = some m →
    (step s = .refused .bufferTooLong ↔ m < c.len)

/-- R36, R189: without a START, `IDLE` and `DONE` have no step; that the machine then waits as it is, and
does not stop, is the model's choice (assumption 6). -/
def Obligations.IdleAndDoneWait : Prop :=
  ∀ s : State, startable s = true → s.start = none → step s = .next s

/-- R37: the host's view depends on nothing but `PHASE`, and at `DONE` on `STATUS` and `OUT`, and after an
error not on `OUT`. -/
def Obligations.HostSeesOnlyTheOutcome : Prop :=
  ∀ s t : State,
    ((busy s = true ∧ busy t = true) ∨ (s.phase = .idle ∧ t.phase = .idle)
        ∨ (s.phase = .done ∧ t.phase = .done ∧ s.status = t.status ∧ (s.status = .ok → s.out = t.out)))
      ↔ hostView s = hostView t

/-! ### The buffer and the BitCursor -/

/-- R52: `MemRead(a, 1)` returns byte `a` of the attached buffer, for `a` below `LEN` and nothing else. -/
def Obligations.MemReadReturnsTheBufferByte : Prop :=
  ∀ (data : List Byte) (beyond : Nat → Byte) (len a : Nat),
    (a < len → memRead (attach data beyond len) len a = some (data[a]?.getD (beyond a)))
      ∧ (len ≤ a → memRead (attach data beyond len) len a = none)

/-- R7: a field of `n` bits at stream bit `p` has the value `(N div 2^p) mod 2^n`, where `N` is the buffer
as one integer, and that value is the sum of `streambit(p+k) * 2^k`. -/
def Obligations.FieldValueIsSliceOfTheBuffer : Prop :=
  ∀ (data : List Byte) (beyond : Nat → Byte) (p n : Nat), p + n ≤ 8 * data.length →
    ∃ bits, streamBits (attach data beyond data.length) data.length p n = some bits
      ∧ natOfBits bits = bigNat data / 2 ^ p % 2 ^ n
      ∧ natOfBits bits
          = ((List.range n).map fun k =>
              ((streamBit (attach data beyond data.length) data.length (p + k)).getD false).toNat
                * 2 ^ k).sum

/-- R100: `NEXTBITS(n)` with `n ≤ 32`. Where `n ≤ REM` it returns the sum of `streambit(POS+k) * 2^k`, moves
`POS` and `REM` by `n`, and writes nothing else; the result is read at the port, which is the model's form of
"return" (assumption 12). Where `n > REM` it raises `UnexpectedEnd` and leaves the cursor; that this ends the
decode where `NEXTBITS` is asked for on its own is R8's reading of `raise` (assumption 13). -/
def Obligations.NextBitsReturnsTheFieldOrRaises : Prop :=
  ∀ (s : State) (n : Nat), n ≤ 32 →
    (n ≤ s.rem → CursorInv s → BufferInv s →
        exec (.nextbits n) s = .next { s with
          pos := s.pos + n
          rem := s.rem - n
          port := BitVec.ofNat 32
            ((List.range n).map fun k =>
              ((streamBit s.buf s.len (s.pos + k)).getD false).toNat * 2 ^ k).sum })
      ∧ (s.rem < n →
        ∃ t, exec (.nextbits n) s = .next t ∧ EndsWithError .unexpectedEnd s t
          ∧ t.pos = s.pos ∧ t.rem = s.rem)

/-- R101: `NEXTBITS(0)` returns 0, moves nothing and cannot fail, in every state. -/
def Obligations.NextBitsZeroReturnsZero : Prop :=
  ∀ s : State, exec (.nextbits 0) s = .next { s with port := 0 }

/-- R102: `NEXTBITS(n)` with `n > 32` is refused. -/
def Obligations.NextBitsBeyond32IsRefused : Prop :=
  ∀ (s : State) (n : Nat), 32 < n → exec (.nextbits n) s = .refused .nextBitsTooWide

/-- R105: `TAILZERO()` is true exactly when 1 to 7 bits remain and every one of them is zero, and that is the
same as the last byte shifted right by `8 - REM` being 0. -/
def Obligations.TailZeroLooksAtTheLastByte : Prop :=
  ∀ s : State, CursorInv s → BufferInv s →
    (tailZeroAt s = true ↔
        1 ≤ s.rem ∧ s.rem ≤ 7 ∧ ∀ k, k < s.rem → streamBit s.buf s.len (s.pos + k) = some false)
      ∧ (tailZeroAt s = true ↔
        1 ≤ s.rem ∧ s.rem ≤ 7
          ∧ ∃ b, memRead s.buf s.len (s.len - 1) = some b ∧ b.toNat / 2 ^ (8 - s.rem) = 0)

/-! ### Encodings -/

/-- R76, R79 in the tests' words: each family's element, its bits written out from 30_encoding.md. -/
def Obligations.KnownElementsDecode : Prop :=
  decodeHdr [false, false, true] = .ok (.hdr 0 1)
    ∧ decodeHdr [false, true, false] = .ok (.hdr 2 0)
    ∧ decodeRun [true] = .ok .run1
    ∧ decodeRun [false, true, true, false, true, false] = .ok (.runlit 5)
    ∧ decodeRun [false, false, false, false, true, true, false, true, false, true,
        false, true, false, false, false, false, false, false] = .ok (.runvar [0xAC, 0x02])
    ∧ decodeRun [false, false, false, false, false] = .ok (.runpad 3)
    ∧ decodeRun [false, false] = .error (.group [])
    ∧ decodeRun [false] = .error .tag2

/-- Decode and encode agree on the header: no bit is dropped, whatever follows (R71). -/
def Obligations.HeaderDecodesFromItsEncoding : Prop :=
  ∀ (v : BitVec 2) (f : Bit) (rest : List Bool),
    decodeHdr (encode (.hdr v f) ++ rest) = .ok (.hdr v f)

/-- Decode and encode agree on every well-formed run element (R72 to R76): whatever bits follow a `RUN1`, a
`RUNLIT` or a `RUNVAR`, and with nothing after a `RUNPAD`. -/
def Obligations.RunElementsDecodeFromTheirEncoding : Prop :=
  ∀ (i : Instr) (rest : List Bool), i.wf = true →
    (∀ v f, i ≠ .hdr v f) → (∀ n, i ≠ .nextbits n) → (∀ p, i = .runpad p → rest = []) →
    decodeRun (encode i ++ rest) = .ok i

/-- The other direction: an element that the decoder reads is well-formed, its encoding is exactly the
bits it stands on, and a `RUNPAD` stands on all of them (R72 to R76). -/
def Obligations.DecodedElementStandsOnItsEncoding : Prop :=
  ∀ (bits : List Bool) (i : Instr), decodeRun bits = .ok i →
    i.wf = true ∧ i.bits = (encode i).length ∧ encode i <+: bits
      ∧ (∀ p, i = .runpad p → encode i = bits)

/-- R76: the map is complete. With the longest element's 82 bits at hand some element is always selected,
so there is no unknown element; and the tag, as the window's low bits, selects it. -/
def Obligations.EveryTagSelectsOneElement : Prop :=
  ∀ bits : List Bool, Config.longestElement ≤ bits.length →
    ∃ i, decodeRun bits = .ok i
      ∧ (natOfBits bits % 2 = 1 ↔ i = .run1)
      ∧ (natOfBits bits % 4 = 2 ↔ ∃ l, i = .runlit l)
      ∧ (natOfBits bits % 4 = 0 ↔ ∃ gs, i = .runvar gs)

/-- R76: after a tag `0 0` the element is a `RUNPAD` exactly when 1 to 7 bits are left and all are zero. -/
def Obligations.PadSelectedByZeroTail : Prop :=
  ∀ rest : List Bool,
    (∃ p, decodeRun (false :: false :: rest) = .ok (.runpad p))
      ↔ 1 ≤ rest.length ∧ rest.length ≤ 7 ∧ ∀ b ∈ rest, b = false

/-- R84: the minimal groups of `n` are an accepted `RUNVAR` whose value is `n`, and one group fewer could
not hold `n`. -/
def Obligations.MinimalGroupsCarryTheirValue : Prop :=
  ∀ n : RunLen,
    groupsAccepted (minimalGroups n) = true ∧ groupsValue (minimalGroups n) = n.toNat
      ∧ n.toNat < 2 ^ (7 * (minimalGroups n).length)
      ∧ (1 < (minimalGroups n).length → 2 ^ (7 * ((minimalGroups n).length - 1)) ≤ n.toNat)

/-- R81, R84: the groups of an accepted `RUNVAR` are the minimal groups of its value. -/
def Obligations.AcceptedGroupsAreMinimal : Prop :=
  ∀ gs : List Byte, groupsAccepted gs = true →
    groupsValue gs < 2 ^ 64 ∧ minimalGroups (BitVec.ofNat 64 (groupsValue gs)) = gs

/-! ### A step runs the element at the cursor -/

/-- In the run loop, a step runs the element that the bits at the cursor decode to; nothing is added
around `exec` (R36 row 4, R125). -/
def Obligations.StepRunsTheDecodedElement : Prop :=
  ∀ (s : State) (bits : List Bool) (i : Instr),
    s.start = none → s.phase = .runs → 0 < s.rem →
    window Config.longestElement s = some bits → decodeRun bits = .ok i →
    step s = exec i s

/-- At the start of a decode, a step runs the header that the bits at the cursor decode to
(R36 row 2, R115). -/
def Obligations.StepRunsTheDecodedHeader : Prop :=
  ∀ (s : State) (bits : List Bool) (i : Instr),
    s.start = none → s.phase = .header →
    window 3 s = some bits → decodeHdr bits = .ok i →
    step s = exec i s

/-- R172: a run element that the end of the stream cuts short raises `UnexpectedEnd`. -/
def Obligations.StepOfACutElementRaises : Prop :=
  ∀ (s : State) (bits : List Bool) (c : Cut),
    s.start = none → s.phase = .runs → 0 < s.rem →
    window Config.longestElement s = some bits → decodeRun bits = .error c →
    ∃ t, step s = .next t ∧ EndsWithError .unexpectedEnd s t

/-! ### The header -/

/-- R115: `HDR` with version 0 completes when 3 bits remain: `VERSION`, `FIRST`, the cursor and `PHASE` are
written, the port holds the last field read (assumption 12), and nothing else changes. -/
def Obligations.HdrEntersTheRunLoop : Prop :=
  ∀ (s : State) (f : Bit), 3 ≤ s.rem →
    exec (.hdr 0 f) s = .next { s with
      pos := s.pos + 3, rem := s.rem - 3, version := 0, first := f, phase := .runs
      port := f.setWidth 32 }

/-- R116: `HDR` with version 1, 2 or 3 raises `InvalidVersion`, whatever `first` is (R117). -/
def Obligations.HdrRejectsOtherVersions : Prop :=
  ∀ (s : State) (v : BitVec 2) (f : Bit), v ≠ 0 → 2 ≤ s.rem →
    ∃ t, exec (.hdr v f) s = .next t ∧ EndsWithError .invalidVersion s t

/-- R116, R71: of a non-empty buffer, the first step looks at byte 0 alone: `BUF[0][1:0]` decides between
`InvalidVersion` and the run loop, which it enters with `FIRST = BUF[0][2]`, `POS = 3`,
`REM = 8*LEN - 3` and `RUNS` as it was. -/
def Obligations.HeaderStepLooksAtByteZero : Prop :=
  ∀ (s : State) (b : Byte),
    s.start = none → s.phase = .header → s.pos = 0 → CursorInv s → BufferInv s →
    memRead s.buf s.len 0 = some b →
    (b.toNat % 4 ≠ 0 → ∃ t, step s = .next t ∧ EndsWithError .invalidVersion s t)
      ∧ (b.toNat % 4 = 0 → ∃ t, step s = .next t ∧ t.phase = .runs ∧ t.version = 0
          ∧ t.first.toNat = b.toNat / 4 % 2 ∧ t.pos = 3 ∧ t.rem = 8 * s.len - 3 ∧ t.runs = s.runs)

/-- R118: the header step of an empty buffer raises `UnexpectedEnd`. -/
def Obligations.EmptyBufferRaisesUnexpectedEnd : Prop :=
  ∀ s : State, s.start = none → s.phase = .header → s.rem = 0 →
    ∃ t, step s = .next t ∧ EndsWithError .unexpectedEnd s t

/-! ### The run elements -/

/-- R128, R135: `RUN1` appends a run of 1, consumes 1 bit, and changes nothing else but `B1`, `RUNLEN` and
the port (assumption 12). -/
def Obligations.Run1AppendsOne : Prop :=
  ∀ s : State, 1 ≤ s.rem →
    exec .run1 s = .next { s with
      pos := s.pos + 1, rem := s.rem - 1, b1 := 1, runlen := 1, runs := s.runs ++ [1], port := 1 }

/-- R129, R77: `RUNLIT` appends its literal, zero-extended, consumes 6 bits, and changes nothing else but
the tag bits, `RUNLEN` and the port (assumption 12). -/
def Obligations.RunlitAppendsItsLiteral : Prop :=
  ∀ (s : State) (lit : BitVec 4), 6 ≤ s.rem →
    exec (.runlit lit) s = .next { s with
      pos := s.pos + 6, rem := s.rem - 6, b1 := 0, b2 := 1
      runlen := BitVec.ofNat 64 lit.toNat, runs := s.runs ++ [BitVec.ofNat 64 lit.toNat]
      port := BitVec.ofNat 32 lit.toNat }

/-- R130, R78, R134: a `RUNVAR` that R74 calls well-formed appends the sum of its payloads at their places,
which is below `2^64`, consumes 2 bits and 8 for each group, and changes nothing else but the tag bits,
`VBYTE`, `VIDX`, `VACC`, `RUNLEN` and the port (assumption 12). -/
def Obligations.RunvarAppendsItsValue : Prop :=
  ∀ (s : State) (gs : List Byte), groupsAccepted gs = true → 2 + 8 * gs.length ≤ s.rem →
    groupsValue gs < 2 ^ 64
      ∧ exec (.runvar gs) s = .next { s with
          pos := s.pos + (2 + 8 * gs.length), rem := s.rem - (2 + 8 * gs.length)
          b1 := 0, b2 := 0
          vbyte := gs.getLastD 0, vidx := BitVec.ofNat 4 (gs.length - 1)
          vacc := BitVec.ofNat 64 (groupsValue gs)
          runlen := BitVec.ofNat 64 (groupsValue gs)
          runs := s.runs ++ [BitVec.ofNat 64 (groupsValue gs)]
          port := (gs.getLastD 0).setWidth 32 }

/-- R132: `RUNPAD`, where its pad bits are all that remains after the tag, appends a run of 0 and consumes
the rest of the stream; nothing else changes but the tag bits, `RUNLEN` and the port, which holds the last
tag bit (assumption 12). -/
def Obligations.RunpadAppendsZeroAndEndsTheStream : Prop :=
  ∀ (s : State) (pad : Nat), 1 ≤ pad → pad ≤ 7 → s.rem = 2 + pad →
    exec (.runpad pad) s = .next { s with
      pos := s.pos + (2 + pad), rem := 0, b1 := 0, b2 := 0
      runlen := 0, runs := s.runs ++ [0], port := 0 }

/-- R131, R173: a `RUNVAR` whose 10th group is above 1 raises `RunTooLong`. -/
def Obligations.TenthGroupAboveOneRaisesRunTooLong : Prop :=
  ∀ (s : State) (gs : List Byte),
    groupsWf Config.varMaxBytes gs = true → gs.length = 10 → 1 < (gs.getLastD 0).toNat →
    82 ≤ s.rem →
    ∃ t, exec (.runvar gs) s = .next t ∧ EndsWithError .runTooLong s t

/-- R133, R174: a `RUNVAR` that a group `0x00` terminates after at least one other group raises
`InvalidRun`. -/
def Obligations.NonCanonicalZeroRaisesInvalidRun : Prop :=
  ∀ (s : State) (gs : List Byte),
    groupsWf Config.varMaxBytes gs = true → 2 ≤ gs.length → gs.getLastD 0 = 0 →
    2 + 8 * gs.length ≤ s.rem →
    ∃ t, exec (.runvar gs) s = .next t ∧ EndsWithError .invalidRun s t

/-- R172: an element longer than what remains of the stream raises `UnexpectedEnd`, a `RUNVAR` also where
its later groups would raise another error (R178). A header of another version does so only where the
stream ends before `version` (R116), and a `RUNPAD`, which is selected by what remains, where it ends in
the tag. -/
def Obligations.ShortStreamRaisesUnexpectedEnd : Prop :=
  ∀ (s : State) (i : Instr), i.wf = true →
    (∀ v f, i = .hdr v f → v = 0 ∨ s.rem < 2) → (∀ p, i = .runpad p → s.rem < 2) →
    (∀ n, i ≠ .nextbits n) → s.rem < i.bits →
    ∃ t, exec i s = .next t ∧ EndsWithError .unexpectedEnd s t

/-- R125, R135, R136: a step of the run loop that raises nothing appends exactly one value, `RUNLEN`, to
`RUNS`, consumes at least one bit, and leaves the header's, the expander's and the host's registers and
the buffer as they were. -/
def Obligations.EachRunStepAppendsOneRun : Prop :=
  ∀ s t : State, s.phase = .runs → 0 < s.rem → step s = .next t → t.phase = .runs →
    t.runs = s.runs ++ [t.runlen] ∧ t.rem < s.rem ∧ t.pos + t.rem = s.pos + s.rem
      ∧ t.version = s.version ∧ t.first = s.first
      ∧ t.ridx = s.ridx ∧ t.acc = s.acc ∧ t.state = s.state ∧ t.out = s.out ∧ t.status = s.status
      ∧ t.buf = s.buf ∧ t.len = s.len ∧ t.cfg = s.cfg ∧ t.start = s.start ∧ t.draws = s.draws

/-- R138: what the rules make of a tail of `10*q + r` zero bits at an element boundary. With `r = 0` it is
`q` runs of 0; with `r` 1 or 2 the decode ends in `UnexpectedEnd` after them; with `r` from 3 to 9 it is
`q + 1` runs of 0. -/
def Obligations.ZeroTailDecodesByItsLength : Prop :=
  ∀ (s : State) (q r : Nat),
    s.start = none → s.phase = .runs → r < 10 → s.rem = 10 * q + r →
    streamBits s.buf s.len s.pos s.rem = some (List.replicate s.rem false) →
    if r = 0 then
      ∃ t, steps q s = .next t ∧ t.phase = .runs ∧ t.rem = 0
        ∧ t.runs = s.runs ++ List.replicate q 0
    else if r ≤ 2 then
      ∃ t, steps (q + 1) s = .next t ∧ EndsWithError .unexpectedEnd s t
    else
      ∃ t, steps (q + 1) s = .next t ∧ t.phase = .runs ∧ t.rem = 0
        ∧ t.runs = s.runs ++ List.replicate (q + 1) 0

/-! ### The expander -/

/-- R150: the step at the end of the stream starts the expander, and writes only what `EXPSTART` names. -/
def Obligations.ExpanderStartsAtTheEndOfTheStream : Prop :=
  ∀ s : State, s.start = none → s.phase = .runs → s.rem = 0 →
    step s = .next { s with acc := 0, state := s.first, ridx := 0, phase := .expand }

/-- R151 to R154: one expansion step on the run `r`: a set run emits `ACC` to `ACC + r - 1`, a gap run
nothing; `ACC` advances by `r`, `STATE` flips, `RIDX` goes on, and nothing else changes. With `POS_BITS`
unbounded, as R159 has it. -/
def Obligations.ExpansionStepEmitsOneRun : Prop :=
  ∀ (s : State) (r : RunLen),
    s.start = none → s.phase = .expand → s.runs[s.ridx]? = some r → s.cfg.posBits = none →
    step s = .next { s with
      out := s.out ++ (if s.state = 1 then List.range' s.acc r.toNat else [])
      acc := s.acc + r.toNat
      state := 1 - s.state
      ridx := s.ridx + 1 }

/-- R157: a run of 0 changes nothing but `STATE` and `RIDX`, whatever `POS_BITS` is, if `ACC` fits. That with a
finite `POS_BITS` this step is taken also in a decode whose total will not fit, which R159 puts outside the
spec, is the model's choice (assumption 9). -/
def Obligations.ZeroRunOnlyFlipsState : Prop :=
  ∀ s : State,
    s.start = none → s.phase = .expand → s.runs[s.ridx]? = some 0 → s.cfg.holdsPosition s.acc = true →
    step s = .next { s with state := 1 - s.state, ridx := s.ridx + 1 }

/-- R157: a run of 0 between two runs joins them, and at the end it changes nothing. -/
def Obligations.ZeroRunJoinsItsNeighbours : Prop :=
  ∀ (acc : Nat) (set : Bool) (before after : List Nat) (a b : Nat),
    refExpand acc set (before ++ [a, 0, b] ++ after) = refExpand acc set (before ++ [a + b] ++ after)
      ∧ refExpand acc set (before ++ [0]) = refExpand acc set before

/-- R155: with every run expanded the decode ends with `STATUS = OK`, and `OUT` is the result. -/
def Obligations.ExpanderEndsWithOk : Prop :=
  ∀ s : State, s.start = none → s.phase = .expand → s.ridx = s.runs.length →
    ∃ t, step s = .next t ∧ t.phase = .done ∧ t.status = .ok ∧ t.out = s.out
      ∧ hostView t = .done (.ok s.out)
      ∧ t.buf = s.buf ∧ t.len = s.len ∧ t.cfg = s.cfg ∧ t.start = s.start ∧ t.draws = s.draws

/-- R159, R151: with a finite `POS_BITS` an expansion step has R151's effect where the new `ACC` is below
`2^POS_BITS`, and is refused otherwise. That the refusal falls on this step, and that the steps before it are
taken, is the model's choice (assumption 9). -/
def Obligations.PositionOverflowIsRefused : Prop :=
  ∀ (s : State) (r : RunLen) (w : Nat),
    s.start = none → s.phase = .expand → s.runs[s.ridx]? = some r → s.cfg.posBits = some w →
    (s.acc + r.toNat < 2 ^ w → step s = .next { s with
        out := s.out ++ (if s.state = 1 then List.range' s.acc r.toNat else [])
        acc := s.acc + r.toNat
        state := 1 - s.state
        ridx := s.ridx + 1 })
      ∧ (2 ^ w ≤ s.acc + r.toNat ↔ step s = .refused .positionOverflow)

/-! ### Rules about the whole machine -/

/-- R36: `PHASE` moves only along the table's rows (or stays, where the machine waits, assumption 6). -/
def Obligations.PhaseFollowsTheTable : Prop :=
  ∀ s t : State, step s = .next t → phaseMayFollow s.phase t.phase = true

/-- R35: from a START until `DONE` no step writes `STATUS`. -/
def Obligations.StatusIsWrittenOnlyAtDone : Prop :=
  ∀ s t : State, busy s = true → step s = .next t → t.status ≠ s.status → t.phase = .done

/-- R53, R21: no step of the decoder changes the buffer (R53) or its length (R21). That no step at all changes
the parameters rests on the model's choice to hold them in the field `cfg`, which no step writes
(assumption 8). -/
def Obligations.DecoderNeverWritesTheBuffer : Prop :=
  ∀ s t : State, step s = .next t →
    t.cfg = s.cfg ∧ (s.start = none → t.buf = s.buf ∧ t.len = s.len)

/-- R176, R170, R171: a step into `DONE` with an error starts in `HEADER` or `RUNS` (the expander raises
nothing), discards `RUNS`, and leaves `OUT`, the buffer and the model's own fields (assumptions 4, 5, 8) as they
were. In `HEADER` the error is `InvalidVersion` or `UnexpectedEnd`, and in `RUNS` it is not `InvalidVersion`. -/
def Obligations.ErrorsAreRaisedBeforeExpansion : Prop :=
  ∀ (s t : State) (e : DecodeError),
    step s = .next t → s.phase ≠ .done → t.phase = .done → t.status = .error e →
    ((s.phase = .header ∧ (e = .invalidVersion ∨ e = .unexpectedEnd))
        ∨ (s.phase = .runs ∧ e ≠ .invalidVersion))
      ∧ t.runs = [] ∧ EndsWithError e s t

/-- R52: under the cursor's and the buffer's invariants no step reads outside the buffer: it never ends in
the model's fault. -/
def Obligations.NoStepReadsOutsideTheBuffer : Prop :=
  ∀ s : State, CursorInv s → BufferInv s → ∀ f, step s ≠ .fault f

/-- R216: while the decoder is busy, with no START at the port and `POS_BITS` unbounded, it takes a step. -/
def Obligations.BusyDecoderTakesAStep : Prop :=
  ∀ s : State, busy s = true → s.start = none → s.cfg.posBits = none → CursorInv s → BufferInv s →
    ∃ t, step s = .next t

/-! ### Invariants -/

/-- R22: every step keeps `POS + REM = 8*LEN`. -/
def Obligations.EveryStepKeepsTheCursorInvariant : Prop :=
  ∀ s t : State, CursorInv s → step s = .next t → CursorInv t

/-- R52: every step keeps the buffer whole: each address below `LEN` has a byte (past the host's data a free
one, assumption 10; after `DONE` still the attached one, assumption 25). That every step keeps it canonical, its
listed addresses strictly rising, is about the form the model chose for its memory (assumption 11); no rule of
the spec states it. -/
def Obligations.EveryStepKeepsTheBufferWhole : Prop :=
  ∀ s t : State, BufferInv s → step s = .next t → BufferInv t

/-- R139: every step keeps the bound on the number of runs; with the cursor's invariant it is
`length(RUNS) ≤ 8*LEN - 3` while runs are decoded and expanded. -/
def Obligations.EveryStepKeepsTheBoundOnRuns : Prop :=
  ∀ s t : State, RunsInv s → CursorInv s → step s = .next t →
    RunsInv t ∧ ((t.phase = .runs ∨ t.phase = .expand) → t.runs.length ≤ 8 * t.len - 3)

/-- R156, R177: every step keeps `OUT` strictly increasing, below `ACC` while it grows, and empty in a
decode that has not begun to expand or has ended in an error. -/
def Obligations.EveryStepKeepsOutIncreasing : Prop :=
  ∀ s t : State, OutInv s → step s = .next t → OutInv t

/-- R153, R154, R151: every step keeps `ACC` the sum of the runs expanded, `STATE` their parity, and `OUT`
the set they describe. -/
def Obligations.EveryStepKeepsTheExpandersProgress : Prop :=
  ∀ s t : State, ExpandInv s → step s = .next t → ExpandInv t

/-- R160: at the step into `DONE` from the expander, the length of `OUT` is the sum of the set runs, those
whose number `k` has `(FIRST + k) mod 2 = 1`. -/
def Obligations.ResultLengthIsTheSumOfSetRuns : Prop :=
  ∀ s t : State, ExpandInv s → s.phase = .expand → step s = .next t → t.phase = .done →
    t.out.length
      = (((s.runs.map BitVec.toNat).zipIdx.filter fun rk =>
          (s.first.toNat + rk.2) % 2 == 1).map Prod.fst).sum

/-! ### Whole decodes -/

/-- R85, R83, R158: a listing of a header of version 0 and of run elements that R80 does not reject, whose
bits are whole bytes, decodes to the set that the elements' run lengths describe. (A `RUNPAD` is written by
no element's notation, R83.) -/
def Obligations.AssembledElementsDecodeToTheirRuns : Prop :=
  ∀ (first : Bit) (is : List Instr) (data : List Byte),
    (∀ i ∈ is, i.accepted = true ∧ (runLength i).isSome) →
    assemble ((Instr.hdr 0 first :: is).map AsmLine.element) = some data →
    refDecode data = .ok (refExpand 0 (decide (first = 1)) (is.filterMap runLength))

/-- R158, R201, R202 (b), R213: from any state that accepts START, with the host's command at the port, the
machine is at `DONE` within R213's bound (and one step for the START), and what the host then reads is the
outcome that R158's function gives the first `LEN` bytes; after an error `OUT` is empty. For every instance
whose `POS_BITS` holds the total of the runs (R159). -/
def Obligations.MachineComputesTheDecodeFunction : Prop :=
  ∀ (s : State) (c : StartCommand),
    startable s = true → s.start = some c → s.cfg.admitsLen c.len = true → c.len ≤ c.data.length →
    s.cfg.holdsPosition (refTotal (c.data.take c.len)) = true →
    ∃ t, steps (stepBound c.len) s = .next t ∧ t.phase = .done
      ∧ hostView t = .done (refDecode (c.data.take c.len))
      ∧ ∀ e, t.status = .error e → t.out = []

/-- R159: on an instance whose `POS_BITS` cannot hold the total of the runs, the decode is refused: it
neither wraps nor ends in an error of its own. -/
def Obligations.DecodeBeyondPosBitsIsRefused : Prop :=
  ∀ (s : State) (c : StartCommand),
    startable s = true → s.start = some c → s.cfg.admitsLen c.len = true → c.len ≤ c.data.length →
    s.cfg.holdsPosition (refTotal (c.data.take c.len)) = false →
    steps (stepBound c.len) s = .refused .positionOverflow

/-- R213: every decode ends, whatever the buffer holds and whatever follows it where `LEN` is larger than
the data. -/
def Obligations.EveryDecodeEnds : Prop :=
  ∀ (s : State) (c : StartCommand),
    startable s = true → s.start = some c → s.cfg.admitsLen c.len = true → s.cfg.posBits = none →
    ∃ t, steps (stepBound c.len) s = .next t ∧ t.phase = .done

/-- R12, R201: nothing of an earlier decode shows in a later one, nor does any free value. Two instances of
the same parameters, whatever they did before, that take the same START with its whole buffer show the
host the same view after every further step. -/
def Obligations.NothingOfAnEarlierDecodeShows : Prop :=
  ∀ (s₁ s₂ : State) (c : StartCommand) (k : Nat),
    startable s₁ = true → startable s₂ = true → s₁.start = some c → s₂.start = some c →
    s₁.cfg = s₂.cfg → c.len ≤ c.data.length →
    seen (steps (k + 1) s₁) = seen (steps (k + 1) s₂)
end

