-- ==== Sys2Proof/Laws/Decode.lean ====
section
/-! SUPPORT. Laws of fields, groups, the decoder's parts and the encoder (spec/00_scope.md R7,
spec/30_encoding.md R71 to R84). -/

namespace Sys2Proof

/-! ### Bits and fields -/

theorem natOfBits_lt (bits : List Bool) : natOfBits bits < 2 ^ bits.length := by
  induction bits with
  | nil => simp [natOfBits]
  | cons b bs ih =>
    simp only [natOfBits, List.length_cons, pow_succ]
    cases b <;> simp <;> omega

theorem natOfBits_eq_zero_iff (bits : List Bool) : natOfBits bits = 0 ↔ ∀ b ∈ bits, b = false := by
  induction bits with
  | nil => simp [natOfBits]
  | cons b bs ih => cases b <;> simp [natOfBits, ih]

@[simp] theorem bitsOfNat_length (w n : Nat) : (bitsOfNat w n).length = w := by
  induction w generalizing n with
  | zero => rfl
  | succ w ih => simp [bitsOfNat, ih]

@[simp] theorem bitsOfField_length {w : Nat} (v : BitVec w) : (bitsOfField v).length = w :=
  bitsOfNat_length w v.toNat

theorem natOfBits_bitsOfNat (w n : Nat) : natOfBits (bitsOfNat w n) = n % 2 ^ w := by
  induction w generalizing n with
  | zero => simp [bitsOfNat, natOfBits, Nat.mod_one]
  | succ w ih =>
    simp only [bitsOfNat, natOfBits, ih]
    rw [pow_succ', Nat.mod_mul]
    rcases Nat.mod_two_eq_zero_or_one n with h | h <;> simp [h]

theorem bitsOfNat_natOfBits (bits : List Bool) : bitsOfNat bits.length (natOfBits bits) = bits := by
  induction bits with
  | nil => rfl
  | cons b bs ih =>
    simp only [List.length_cons, natOfBits, bitsOfNat]
    cases b
    · simp [ih]
    · simp [show (1 + 2 * natOfBits bs) / 2 = natOfBits bs by omega, ih]

/-- A field read back from its own bits is the field (R7). -/
theorem fieldOf_bitsOfField {w : Nat} (v : BitVec w) : fieldOf w (bitsOfField v) = v := by
  simp [fieldOf, bitsOfField, natOfBits_bitsOfNat]

/-- The bits of a field are the bits it was read from (R7). -/
theorem bitsOfField_fieldOf (bits : List Bool) : bitsOfField (fieldOf bits.length bits) = bits := by
  simp [fieldOf, bitsOfField, Nat.mod_eq_of_lt (natOfBits_lt bits), bitsOfNat_natOfBits]

/-- The eight bits of a group, one by one. -/
theorem bitsOfField_byte (g : Byte) (rest : List Bool) :
    ∃ b0 b1 b2 b3 b4 b5 b6 b7,
      bitsOfField g ++ rest = b0 :: b1 :: b2 :: b3 :: b4 :: b5 :: b6 :: b7 :: rest
        ∧ fieldOf 8 [b0, b1, b2, b3, b4, b5, b6, b7] = g := by
  have hl : (bitsOfField g).length = 8 := bitsOfField_length g
  have hg := fieldOf_bitsOfField g
  match h : bitsOfField g, hl with
  | [b0, b1, b2, b3, b4, b5, b6, b7], _ =>
    rw [h] at hg
    exact ⟨b0, b1, b2, b3, b4, b5, b6, b7, rfl, hg⟩

@[simp] theorem bitsOfGroups_length (gs : List Byte) : (bitsOfGroups gs).length = 8 * gs.length := by
  induction gs with
  | nil => rfl
  | cons g gs ih => simp [bitsOfGroups, ih]; omega

@[simp] theorem bitsOfBytes_length (bytes : List Byte) : (bitsOfBytes bytes).length = 8 * bytes.length := by
  induction bytes with
  | nil => rfl
  | cons b bs ih => simp [bitsOfBytes, ih]; omega

/-! ### The zero tail and the groups -/

/-- What `TAILZERO()` says of the bits that remain (R105). -/
theorem tailZero_iff (bits : List Bool) :
    tailZero bits = true ↔ 1 ≤ bits.length ∧ bits.length ≤ 7 ∧ ∀ b ∈ bits, b = false := by
  unfold tailZero
  rw [Bool.and_eq_true, Bool.and_eq_true, decide_eq_true_iff, decide_eq_true_iff]
  simp [Config.padMax, and_assoc]

/-- Well-formed groups are one at least, if one may be read, and no more than may be read (R74, R79). -/
theorem groupsWf_length {room : Nat} {gs : List Byte} (h : groupsWf room gs = true) :
    gs.length ≤ room ∧ (0 < room → 0 < gs.length) := by
  induction room generalizing gs with
  | zero => simp [groupsWf] at h; simp [h]
  | succ room ih =>
    match gs with
    | [] => simp [groupsWf] at h
    | g :: gs =>
      simp only [groupsWf] at h
      split_ifs at h
      · have := ih h; simp; omega
      · simp at h; simp [h]

/-- Well-formed groups are read back from their bits, and nothing after them is looked at (R74, R79). -/
theorem readGroups_bitsOfGroups (room : Nat) (gs : List Byte) (rest : List Bool)
    (h : groupsWf room gs = true) : readGroups room (bitsOfGroups gs ++ rest) = (gs, true) := by
  induction room generalizing gs with
  | zero => simp [groupsWf] at h; subst h; simp [readGroups]
  | succ room ih =>
    match gs with
    | [] => simp [groupsWf] at h
    | g :: gs =>
      obtain ⟨b0, b1, b2, b3, b4, b5, b6, b7, h1, h2⟩ := bitsOfField_byte g (bitsOfGroups gs ++ rest)
      simp only [bitsOfGroups, List.append_assoc, h1, readGroups, h2, contFlag]
      simp only [groupsWf] at h
      split_ifs at h ⊢
      · rw [ih gs h]
      · simp at h; simp [h]

/-- All that reading groups can give: they stand at the front of the bits; if the last one ends the element
they are well-formed; 8 bits for each group that may be read always suffice; and where the stream cuts the
element short, each group read has its continuation flag, and fewer than 8 bits are left (R79, R130). -/
theorem readGroups_spec (room : Nat) (bits : List Bool) :
    bitsOfGroups (readGroups room bits).1 <+: bits
      ∧ ((readGroups room bits).2 = true → groupsWf room (readGroups room bits).1 = true)
      ∧ (8 * room ≤ bits.length → (readGroups room bits).2 = true)
      ∧ ((readGroups room bits).2 = false →
          bits.length < 8 * (readGroups room bits).1.length + 8
            ∧ (readGroups room bits).1.length < room
            ∧ ∀ g ∈ (readGroups room bits).1, contFlag g = true) := by
  induction room generalizing bits with
  | zero => simp [readGroups, bitsOfGroups, groupsWf]
  | succ room ih =>
    match bits with
    | b0 :: b1 :: b2 :: b3 :: b4 :: b5 :: b6 :: b7 :: rest =>
      have hf := bitsOfField_fieldOf [b0, b1, b2, b3, b4, b5, b6, b7]
      simp only [List.length_cons, List.length_nil] at hf
      obtain ⟨h1, h2, h3, h4⟩ := ih rest
      simp only [readGroups]
      split_ifs with hc
      · refine ⟨?_, ?_, ?_, ?_⟩
        · simp [bitsOfGroups, hf]; exact h1
        · intro h
          simp only [contFlag] at hc
          simp [groupsWf, hc, h2 h]
        · intro h; exact h3 (by simp at h; omega)
        · intro h
          have := h4 h
          simp [hc]
          exact ⟨by omega, by omega, this.2.2⟩
      · simp [bitsOfGroups, hf, groupsWf]
        left; simpa [contFlag] using hc
    | [] | [_] | [_, _] | [_, _, _] | [_, _, _, _] | [_, _, _, _, _] | [_, _, _, _, _, _]
    | [_, _, _, _, _, _, _] =>
      simp [readGroups, bitsOfGroups]; try omega

/-! ### What a fetched element can be -/

/-- At the header's place the element to execute is a header, whole or cut short (R71). -/
theorem elementOf_decodeHdr (bits : List Bool) : ∃ v f, elementOf (decodeHdr bits) = .hdr v f := by
  match bits with
  | [] | [_] | [_, _] | _ :: _ :: _ :: _ => simp [decodeHdr, elementOf, Cut.element]

/-- In the run loop the element to execute is a run element, whole or cut short (R76). -/
theorem elementOf_decodeRun (bits : List Bool) :
    (∀ n, elementOf (decodeRun bits) ≠ .nextbits n) ∧ ∀ v f, elementOf (decodeRun bits) ≠ .hdr v f := by
  match bits with
  | [] | [false] | [false, true] | [false, true, _] | [false, true, _, _] | [false, true, _, _, _] =>
    simp [decodeRun, elementOf, Cut.element]
  | true :: _ | false :: true :: _ :: _ :: _ :: _ :: _ => simp [decodeRun, elementOf]
  | false :: false :: rest =>
    simp only [decodeRun]
    split_ifs <;> simp [elementOf, Cut.element]

end Sys2Proof
end

