-- ==== Sys2Proof/Laws/State.lean ====
section
/-! SUPPORT. One lemma per field per update of the state: what each named update leaves in each register.
True by rfl, so that no later proof unfolds a record update. -/

namespace Sys2Proof.Machine

/-! ### advance -/

@[simp] theorem State.advance_cfg (s : State) (w : Nat) (v : BitVec w) : (s.advance w v).cfg = s.cfg := rfl
@[simp] theorem State.advance_buf (s : State) (w : Nat) (v : BitVec w) : (s.advance w v).buf = s.buf := rfl
@[simp] theorem State.advance_len (s : State) (w : Nat) (v : BitVec w) : (s.advance w v).len = s.len := rfl
@[simp] theorem State.advance_pos (s : State) (w : Nat) (v : BitVec w) : (s.advance w v).pos = s.pos + w := rfl
@[simp] theorem State.advance_rem (s : State) (w : Nat) (v : BitVec w) : (s.advance w v).rem = s.rem - w := rfl
@[simp] theorem State.advance_version (s : State) (w : Nat) (v : BitVec w) : (s.advance w v).version = s.version := rfl
@[simp] theorem State.advance_first (s : State) (w : Nat) (v : BitVec w) : (s.advance w v).first = s.first := rfl
@[simp] theorem State.advance_b1 (s : State) (w : Nat) (v : BitVec w) : (s.advance w v).b1 = s.b1 := rfl
@[simp] theorem State.advance_b2 (s : State) (w : Nat) (v : BitVec w) : (s.advance w v).b2 = s.b2 := rfl
@[simp] theorem State.advance_vbyte (s : State) (w : Nat) (v : BitVec w) : (s.advance w v).vbyte = s.vbyte := rfl
@[simp] theorem State.advance_vidx (s : State) (w : Nat) (v : BitVec w) : (s.advance w v).vidx = s.vidx := rfl
@[simp] theorem State.advance_vacc (s : State) (w : Nat) (v : BitVec w) : (s.advance w v).vacc = s.vacc := rfl
@[simp] theorem State.advance_runlen (s : State) (w : Nat) (v : BitVec w) : (s.advance w v).runlen = s.runlen := rfl
@[simp] theorem State.advance_runs (s : State) (w : Nat) (v : BitVec w) : (s.advance w v).runs = s.runs := rfl
@[simp] theorem State.advance_ridx (s : State) (w : Nat) (v : BitVec w) : (s.advance w v).ridx = s.ridx := rfl
@[simp] theorem State.advance_acc (s : State) (w : Nat) (v : BitVec w) : (s.advance w v).acc = s.acc := rfl
@[simp] theorem State.advance_state (s : State) (w : Nat) (v : BitVec w) : (s.advance w v).state = s.state := rfl
@[simp] theorem State.advance_out (s : State) (w : Nat) (v : BitVec w) : (s.advance w v).out = s.out := rfl
@[simp] theorem State.advance_phase (s : State) (w : Nat) (v : BitVec w) : (s.advance w v).phase = s.phase := rfl
@[simp] theorem State.advance_status (s : State) (w : Nat) (v : BitVec w) : (s.advance w v).status = s.status := rfl
@[simp] theorem State.advance_port (s : State) (w : Nat) (v : BitVec w) : (s.advance w v).port = v.setWidth 32 := rfl
@[simp] theorem State.advance_start (s : State) (w : Nat) (v : BitVec w) : (s.advance w v).start = s.start := rfl
@[simp] theorem State.advance_draws (s : State) (w : Nat) (v : BitVec w) : (s.advance w v).draws = s.draws := rfl

/-! ### withRun -/

@[simp] theorem State.withRun_cfg (s : State) (r : RunLen) : (s.withRun r).cfg = s.cfg := rfl
@[simp] theorem State.withRun_buf (s : State) (r : RunLen) : (s.withRun r).buf = s.buf := rfl
@[simp] theorem State.withRun_len (s : State) (r : RunLen) : (s.withRun r).len = s.len := rfl
@[simp] theorem State.withRun_pos (s : State) (r : RunLen) : (s.withRun r).pos = s.pos := rfl
@[simp] theorem State.withRun_rem (s : State) (r : RunLen) : (s.withRun r).rem = s.rem := rfl
@[simp] theorem State.withRun_version (s : State) (r : RunLen) : (s.withRun r).version = s.version := rfl
@[simp] theorem State.withRun_first (s : State) (r : RunLen) : (s.withRun r).first = s.first := rfl
@[simp] theorem State.withRun_b1 (s : State) (r : RunLen) : (s.withRun r).b1 = s.b1 := rfl
@[simp] theorem State.withRun_b2 (s : State) (r : RunLen) : (s.withRun r).b2 = s.b2 := rfl
@[simp] theorem State.withRun_vbyte (s : State) (r : RunLen) : (s.withRun r).vbyte = s.vbyte := rfl
@[simp] theorem State.withRun_vidx (s : State) (r : RunLen) : (s.withRun r).vidx = s.vidx := rfl
@[simp] theorem State.withRun_vacc (s : State) (r : RunLen) : (s.withRun r).vacc = s.vacc := rfl
@[simp] theorem State.withRun_runlen (s : State) (r : RunLen) : (s.withRun r).runlen = r := rfl
@[simp] theorem State.withRun_runs (s : State) (r : RunLen) : (s.withRun r).runs = s.runs ++ [r] := rfl
@[simp] theorem State.withRun_ridx (s : State) (r : RunLen) : (s.withRun r).ridx = s.ridx := rfl
@[simp] theorem State.withRun_acc (s : State) (r : RunLen) : (s.withRun r).acc = s.acc := rfl
@[simp] theorem State.withRun_state (s : State) (r : RunLen) : (s.withRun r).state = s.state := rfl
@[simp] theorem State.withRun_out (s : State) (r : RunLen) : (s.withRun r).out = s.out := rfl
@[simp] theorem State.withRun_phase (s : State) (r : RunLen) : (s.withRun r).phase = s.phase := rfl
@[simp] theorem State.withRun_status (s : State) (r : RunLen) : (s.withRun r).status = s.status := rfl
@[simp] theorem State.withRun_port (s : State) (r : RunLen) : (s.withRun r).port = s.port := rfl
@[simp] theorem State.withRun_start (s : State) (r : RunLen) : (s.withRun r).start = s.start := rfl
@[simp] theorem State.withRun_draws (s : State) (r : RunLen) : (s.withRun r).draws = s.draws := rfl

/-! ### takeError -/

@[simp] theorem takeError_cfg (e : DecodeError) (s : State) : (takeError e s).cfg = s.cfg := rfl
@[simp] theorem takeError_buf (e : DecodeError) (s : State) : (takeError e s).buf = s.buf := rfl
@[simp] theorem takeError_len (e : DecodeError) (s : State) : (takeError e s).len = s.len := rfl
@[simp] theorem takeError_pos (e : DecodeError) (s : State) : (takeError e s).pos = s.pos := rfl
@[simp] theorem takeError_rem (e : DecodeError) (s : State) : (takeError e s).rem = s.rem := rfl
@[simp] theorem takeError_version (e : DecodeError) (s : State) : (takeError e s).version = s.version := rfl
@[simp] theorem takeError_first (e : DecodeError) (s : State) : (takeError e s).first = s.first := rfl
@[simp] theorem takeError_b1 (e : DecodeError) (s : State) : (takeError e s).b1 = s.b1 := rfl
@[simp] theorem takeError_b2 (e : DecodeError) (s : State) : (takeError e s).b2 = s.b2 := rfl
@[simp] theorem takeError_vbyte (e : DecodeError) (s : State) : (takeError e s).vbyte = s.vbyte := rfl
@[simp] theorem takeError_vidx (e : DecodeError) (s : State) : (takeError e s).vidx = s.vidx := rfl
@[simp] theorem takeError_vacc (e : DecodeError) (s : State) : (takeError e s).vacc = s.vacc := rfl
@[simp] theorem takeError_runlen (e : DecodeError) (s : State) : (takeError e s).runlen = s.runlen := rfl
@[simp] theorem takeError_runs (e : DecodeError) (s : State) : (takeError e s).runs = [] := rfl
@[simp] theorem takeError_ridx (e : DecodeError) (s : State) : (takeError e s).ridx = s.ridx := rfl
@[simp] theorem takeError_acc (e : DecodeError) (s : State) : (takeError e s).acc = s.acc := rfl
@[simp] theorem takeError_state (e : DecodeError) (s : State) : (takeError e s).state = s.state := rfl
@[simp] theorem takeError_out (e : DecodeError) (s : State) : (takeError e s).out = s.out := rfl
@[simp] theorem takeError_phase (e : DecodeError) (s : State) : (takeError e s).phase = .done := rfl
@[simp] theorem takeError_status (e : DecodeError) (s : State) : (takeError e s).status = .error e := rfl
@[simp] theorem takeError_port (e : DecodeError) (s : State) : (takeError e s).port = s.port := rfl
@[simp] theorem takeError_start (e : DecodeError) (s : State) : (takeError e s).start = s.start := rfl
@[simp] theorem takeError_draws (e : DecodeError) (s : State) : (takeError e s).draws = s.draws := rfl

/-! ### issue -/

@[simp] theorem State.issue_cfg (s : State) (c : StartCommand) : (s.issue c).cfg = s.cfg := rfl
@[simp] theorem State.issue_buf (s : State) (c : StartCommand) : (s.issue c).buf = s.buf := rfl
@[simp] theorem State.issue_len (s : State) (c : StartCommand) : (s.issue c).len = s.len := rfl
@[simp] theorem State.issue_pos (s : State) (c : StartCommand) : (s.issue c).pos = s.pos := rfl
@[simp] theorem State.issue_rem (s : State) (c : StartCommand) : (s.issue c).rem = s.rem := rfl
@[simp] theorem State.issue_version (s : State) (c : StartCommand) : (s.issue c).version = s.version := rfl
@[simp] theorem State.issue_first (s : State) (c : StartCommand) : (s.issue c).first = s.first := rfl
@[simp] theorem State.issue_b1 (s : State) (c : StartCommand) : (s.issue c).b1 = s.b1 := rfl
@[simp] theorem State.issue_b2 (s : State) (c : StartCommand) : (s.issue c).b2 = s.b2 := rfl
@[simp] theorem State.issue_vbyte (s : State) (c : StartCommand) : (s.issue c).vbyte = s.vbyte := rfl
@[simp] theorem State.issue_vidx (s : State) (c : StartCommand) : (s.issue c).vidx = s.vidx := rfl
@[simp] theorem State.issue_vacc (s : State) (c : StartCommand) : (s.issue c).vacc = s.vacc := rfl
@[simp] theorem State.issue_runlen (s : State) (c : StartCommand) : (s.issue c).runlen = s.runlen := rfl
@[simp] theorem State.issue_runs (s : State) (c : StartCommand) : (s.issue c).runs = s.runs := rfl
@[simp] theorem State.issue_ridx (s : State) (c : StartCommand) : (s.issue c).ridx = s.ridx := rfl
@[simp] theorem State.issue_acc (s : State) (c : StartCommand) : (s.issue c).acc = s.acc := rfl
@[simp] theorem State.issue_state (s : State) (c : StartCommand) : (s.issue c).state = s.state := rfl
@[simp] theorem State.issue_out (s : State) (c : StartCommand) : (s.issue c).out = s.out := rfl
@[simp] theorem State.issue_phase (s : State) (c : StartCommand) : (s.issue c).phase = s.phase := rfl
@[simp] theorem State.issue_status (s : State) (c : StartCommand) : (s.issue c).status = s.status := rfl
@[simp] theorem State.issue_port (s : State) (c : StartCommand) : (s.issue c).port = s.port := rfl
@[simp] theorem State.issue_start (s : State) (c : StartCommand) : (s.issue c).start = some c := rfl
@[simp] theorem State.issue_draws (s : State) (c : StartCommand) : (s.issue c).draws = s.draws := rfl

/-! ### startDecode -/

@[simp] theorem startDecode_cfg (c : StartCommand) (s : State) : (startDecode c s).cfg = s.cfg := rfl
@[simp] theorem startDecode_buf (c : StartCommand) (s : State) : (startDecode c s).buf = attach c.data (Config.freeByte s.draws) c.len := rfl
@[simp] theorem startDecode_len (c : StartCommand) (s : State) : (startDecode c s).len = c.len := rfl
@[simp] theorem startDecode_pos (c : StartCommand) (s : State) : (startDecode c s).pos = 0 := rfl
@[simp] theorem startDecode_rem (c : StartCommand) (s : State) : (startDecode c s).rem = 8 * c.len := rfl
@[simp] theorem startDecode_version (c : StartCommand) (s : State) : (startDecode c s).version = Config.freeBits .version s.draws 2 := rfl
@[simp] theorem startDecode_first (c : StartCommand) (s : State) : (startDecode c s).first = Config.freeBits .first s.draws 1 := rfl
@[simp] theorem startDecode_b1 (c : StartCommand) (s : State) : (startDecode c s).b1 = Config.freeBits .b1 s.draws 1 := rfl
@[simp] theorem startDecode_b2 (c : StartCommand) (s : State) : (startDecode c s).b2 = Config.freeBits .b2 s.draws 1 := rfl
@[simp] theorem startDecode_vbyte (c : StartCommand) (s : State) : (startDecode c s).vbyte = Config.freeBits .vbyte s.draws 8 := rfl
@[simp] theorem startDecode_vidx (c : StartCommand) (s : State) : (startDecode c s).vidx = Config.freeBits .vidx s.draws 4 := rfl
@[simp] theorem startDecode_vacc (c : StartCommand) (s : State) : (startDecode c s).vacc = Config.freeBits .vacc s.draws 64 := rfl
@[simp] theorem startDecode_runlen (c : StartCommand) (s : State) : (startDecode c s).runlen = Config.freeBits .runlen s.draws 64 := rfl
@[simp] theorem startDecode_runs (c : StartCommand) (s : State) : (startDecode c s).runs = [] := rfl
@[simp] theorem startDecode_ridx (c : StartCommand) (s : State) : (startDecode c s).ridx = Config.freeNat .ridx s.draws := rfl
@[simp] theorem startDecode_acc (c : StartCommand) (s : State) : (startDecode c s).acc = Config.freeNat .acc s.draws := rfl
@[simp] theorem startDecode_state (c : StartCommand) (s : State) : (startDecode c s).state = Config.freeBits .state s.draws 1 := rfl
@[simp] theorem startDecode_out (c : StartCommand) (s : State) : (startDecode c s).out = [] := rfl
@[simp] theorem startDecode_phase (c : StartCommand) (s : State) : (startDecode c s).phase = .header := rfl
@[simp] theorem startDecode_status (c : StartCommand) (s : State) : (startDecode c s).status = Config.freeStatus s.draws := rfl
@[simp] theorem startDecode_port (c : StartCommand) (s : State) : (startDecode c s).port = Config.freeBits .port s.draws 32 := rfl
@[simp] theorem startDecode_start (c : StartCommand) (s : State) : (startDecode c s).start = none := rfl
@[simp] theorem startDecode_draws (c : StartCommand) (s : State) : (startDecode c s).draws = s.draws + 1 := rfl

/-! ### expandStart -/

@[simp] theorem expandStart_cfg (s : State) : (expandStart s).cfg = s.cfg := rfl
@[simp] theorem expandStart_buf (s : State) : (expandStart s).buf = s.buf := rfl
@[simp] theorem expandStart_len (s : State) : (expandStart s).len = s.len := rfl
@[simp] theorem expandStart_pos (s : State) : (expandStart s).pos = s.pos := rfl
@[simp] theorem expandStart_rem (s : State) : (expandStart s).rem = s.rem := rfl
@[simp] theorem expandStart_version (s : State) : (expandStart s).version = s.version := rfl
@[simp] theorem expandStart_first (s : State) : (expandStart s).first = s.first := rfl
@[simp] theorem expandStart_b1 (s : State) : (expandStart s).b1 = s.b1 := rfl
@[simp] theorem expandStart_b2 (s : State) : (expandStart s).b2 = s.b2 := rfl
@[simp] theorem expandStart_vbyte (s : State) : (expandStart s).vbyte = s.vbyte := rfl
@[simp] theorem expandStart_vidx (s : State) : (expandStart s).vidx = s.vidx := rfl
@[simp] theorem expandStart_vacc (s : State) : (expandStart s).vacc = s.vacc := rfl
@[simp] theorem expandStart_runlen (s : State) : (expandStart s).runlen = s.runlen := rfl
@[simp] theorem expandStart_runs (s : State) : (expandStart s).runs = s.runs := rfl
@[simp] theorem expandStart_ridx (s : State) : (expandStart s).ridx = 0 := rfl
@[simp] theorem expandStart_acc (s : State) : (expandStart s).acc = 0 := rfl
@[simp] theorem expandStart_state (s : State) : (expandStart s).state = s.first := rfl
@[simp] theorem expandStart_out (s : State) : (expandStart s).out = s.out := rfl
@[simp] theorem expandStart_phase (s : State) : (expandStart s).phase = .expand := rfl
@[simp] theorem expandStart_status (s : State) : (expandStart s).status = s.status := rfl
@[simp] theorem expandStart_port (s : State) : (expandStart s).port = s.port := rfl
@[simp] theorem expandStart_start (s : State) : (expandStart s).start = s.start := rfl
@[simp] theorem expandStart_draws (s : State) : (expandStart s).draws = s.draws := rfl

/-! ### expandRun -/

@[simp] theorem expandRun_cfg (r : RunLen) (s : State) : (expandRun r s).cfg = s.cfg := rfl
@[simp] theorem expandRun_buf (r : RunLen) (s : State) : (expandRun r s).buf = s.buf := rfl
@[simp] theorem expandRun_len (r : RunLen) (s : State) : (expandRun r s).len = s.len := rfl
@[simp] theorem expandRun_pos (r : RunLen) (s : State) : (expandRun r s).pos = s.pos := rfl
@[simp] theorem expandRun_rem (r : RunLen) (s : State) : (expandRun r s).rem = s.rem := rfl
@[simp] theorem expandRun_version (r : RunLen) (s : State) : (expandRun r s).version = s.version := rfl
@[simp] theorem expandRun_first (r : RunLen) (s : State) : (expandRun r s).first = s.first := rfl
@[simp] theorem expandRun_b1 (r : RunLen) (s : State) : (expandRun r s).b1 = s.b1 := rfl
@[simp] theorem expandRun_b2 (r : RunLen) (s : State) : (expandRun r s).b2 = s.b2 := rfl
@[simp] theorem expandRun_vbyte (r : RunLen) (s : State) : (expandRun r s).vbyte = s.vbyte := rfl
@[simp] theorem expandRun_vidx (r : RunLen) (s : State) : (expandRun r s).vidx = s.vidx := rfl
@[simp] theorem expandRun_vacc (r : RunLen) (s : State) : (expandRun r s).vacc = s.vacc := rfl
@[simp] theorem expandRun_runlen (r : RunLen) (s : State) : (expandRun r s).runlen = s.runlen := rfl
@[simp] theorem expandRun_runs (r : RunLen) (s : State) : (expandRun r s).runs = s.runs := rfl
@[simp] theorem expandRun_ridx (r : RunLen) (s : State) : (expandRun r s).ridx = s.ridx + 1 := rfl
@[simp] theorem expandRun_acc (r : RunLen) (s : State) : (expandRun r s).acc = s.acc + r.toNat := rfl
@[simp] theorem expandRun_state (r : RunLen) (s : State) : (expandRun r s).state = flipState s.state := rfl
@[simp] theorem expandRun_out (r : RunLen) (s : State) : (expandRun r s).out = s.out ++ emitted s.state s.acc r.toNat := rfl
@[simp] theorem expandRun_phase (r : RunLen) (s : State) : (expandRun r s).phase = s.phase := rfl
@[simp] theorem expandRun_status (r : RunLen) (s : State) : (expandRun r s).status = s.status := rfl
@[simp] theorem expandRun_port (r : RunLen) (s : State) : (expandRun r s).port = s.port := rfl
@[simp] theorem expandRun_start (r : RunLen) (s : State) : (expandRun r s).start = s.start := rfl
@[simp] theorem expandRun_draws (r : RunLen) (s : State) : (expandRun r s).draws = s.draws := rfl

/-! ### expandEnd -/

@[simp] theorem expandEnd_cfg (s : State) : (expandEnd s).cfg = s.cfg := rfl
@[simp] theorem expandEnd_buf (s : State) : (expandEnd s).buf = s.buf := rfl
@[simp] theorem expandEnd_len (s : State) : (expandEnd s).len = s.len := rfl
@[simp] theorem expandEnd_pos (s : State) : (expandEnd s).pos = s.pos := rfl
@[simp] theorem expandEnd_rem (s : State) : (expandEnd s).rem = s.rem := rfl
@[simp] theorem expandEnd_version (s : State) : (expandEnd s).version = s.version := rfl
@[simp] theorem expandEnd_first (s : State) : (expandEnd s).first = s.first := rfl
@[simp] theorem expandEnd_b1 (s : State) : (expandEnd s).b1 = s.b1 := rfl
@[simp] theorem expandEnd_b2 (s : State) : (expandEnd s).b2 = s.b2 := rfl
@[simp] theorem expandEnd_vbyte (s : State) : (expandEnd s).vbyte = s.vbyte := rfl
@[simp] theorem expandEnd_vidx (s : State) : (expandEnd s).vidx = s.vidx := rfl
@[simp] theorem expandEnd_vacc (s : State) : (expandEnd s).vacc = s.vacc := rfl
@[simp] theorem expandEnd_runlen (s : State) : (expandEnd s).runlen = s.runlen := rfl
@[simp] theorem expandEnd_runs (s : State) : (expandEnd s).runs = s.runs := rfl
@[simp] theorem expandEnd_ridx (s : State) : (expandEnd s).ridx = s.ridx := rfl
@[simp] theorem expandEnd_acc (s : State) : (expandEnd s).acc = s.acc := rfl
@[simp] theorem expandEnd_state (s : State) : (expandEnd s).state = s.state := rfl
@[simp] theorem expandEnd_out (s : State) : (expandEnd s).out = s.out := rfl
@[simp] theorem expandEnd_phase (s : State) : (expandEnd s).phase = .done := rfl
@[simp] theorem expandEnd_status (s : State) : (expandEnd s).status = .ok := rfl
@[simp] theorem expandEnd_port (s : State) : (expandEnd s).port = s.port := rfl
@[simp] theorem expandEnd_start (s : State) : (expandEnd s).start = s.start := rfl
@[simp] theorem expandEnd_draws (s : State) : (expandEnd s).draws = s.draws := rfl

end Sys2Proof.Machine
end

