-- ==== Sys2Proof/Laws/Ops.lean ====
section
/-! SUPPORT. For each shared operation, once, what it can do: the buffer's reads, the attempts, the
BitCursor, the operands, raising an error. -/

namespace Sys2Proof.Laws

open Sys2Proof.Machine Sys2Proof.Safety

/-! ### The buffer -/

/-- The only memory operation that writes is START's attach; it gives the canonical form. -/
theorem memoryWf_attach (data : List Byte) (beyond : Nat → Byte) (len : Nat) :
    memoryWf (attach data beyond len) = true := by
  have rising : ∀ (f : Nat → Byte) (n k : Nat),
      memoryWf ((List.range' k n).map fun a => (a, f a)) = true := by
    intro f n
    induction n with
    | zero => intro k; rfl
    | succ n ih =>
      intro k
      cases n with
      | zero => rfl
      | succ n =>
        have := ih (k + 1)
        simp only [List.range'_succ, List.map_cons, memoryWf] at this ⊢
        simp [this]
  simpa [attach, List.range_eq_range'] using rising (fun a => data[a]?.getD (beyond a)) len 0

theorem memoryWf_reset : memoryWf State.reset.buf = true := rfl

/-- The listed bytes of an attached buffer are the addresses below its length. -/
theorem memLookup_attach (data : List Byte) (beyond : Nat → Byte) (len a : Nat) :
    memLookup (attach data beyond len) a = if a < len then some (data[a]?.getD (beyond a)) else none := by
  have listed : ∀ (f : Nat → Byte) (n k : Nat),
      memLookup ((List.range' k n).map fun a => (a, f a)) a
        = if k ≤ a ∧ a < k + n then some (f a) else none := by
    intro f n
    induction n with
    | zero => intro k; simp [memLookup]
    | succ n ih =>
      intro k
      simp only [List.range'_succ, List.map_cons, memLookup, ih]
      split_ifs <;> first | rfl | omega | (subst_vars; rfl)
  simpa [attach, List.range_eq_range'] using listed (fun a => data[a]?.getD (beyond a)) len 0

/-- Two reads after one another are one read (R107). -/
theorem streamBits_add (m : List Host.Cell) (len p k n : Nat) :
    streamBits m len p (k + n)
      = (streamBits m len p k).bind fun a => (streamBits m len (p + k) n).map fun b => a ++ b := by
  induction k generalizing p with
  | zero => simp [streamBits]
  | succ k ih =>
    rw [show k + 1 + n = (k + n) + 1 by omega]
    simp only [streamBits, ih, show p + 1 + k = p + (k + 1) by omega]
    cases streamBit m len p <;> cases streamBits m len (p + 1) k <;>
      cases streamBits m len (p + (k + 1)) n <;> simp

theorem streamBits_length {m : List Host.Cell} {len p n : Nat} {bits : List Bool}
    (h : streamBits m len p n = some bits) : bits.length = n := by
  induction n generalizing p bits with
  | zero => simp [streamBits] at h; simp [← h]
  | succ n ih =>
    simp only [streamBits] at h
    split at h
    · rename_i b bs _ h2
      simp at h; subst h; simp [ih h2]
    · simp at h

/-- The bits read, as a number, are the sum that R100 gives. -/
theorem streamBits_value {m : List Host.Cell} {len p n : Nat} {bits : List Bool}
    (h : streamBits m len p n = some bits) :
    natOfBits bits
      = ((List.range n).map fun k => ((streamBit m len (p + k)).getD false).toNat * 2 ^ k).sum := by
  induction n generalizing p bits with
  | zero => simp [streamBits] at h; subst h; simp [natOfBits]
  | succ n ih =>
    simp only [streamBits] at h
    split at h
    · rename_i b bs h1 h2
      simp at h; subst h
      simp only [natOfBits, ih h2, List.range_succ_eq_map, List.map_cons, List.sum_cons, List.map_map]
      simp only [h1, Nat.add_zero, Option.getD_some, pow_zero, mul_one, Function.comp_def,
        Nat.succ_eq_add_one, pow_succ, Nat.add_left_cancel_iff]
      rw [← List.sum_map_mul_left]
      congr 1
      apply List.map_congr_left
      intro k _
      rw [show p + 1 + k = p + (k + 1) by omega]; ring
    · simp at h

theorem streamBits_isSome {m : List Host.Cell} {len p n : Nat}
    (h : ∀ q, p ≤ q → q < p + n → (streamBit m len q).isSome) :
    ∃ bits, streamBits m len p n = some bits := by
  induction n generalizing p with
  | zero => exact ⟨[], rfl⟩
  | succ n ih =>
    obtain ⟨bs, hbs⟩ := ih (p := p + 1) fun q h1 h2 => h q (by omega) (by omega)
    obtain ⟨b, hb⟩ := Option.isSome_iff_exists.mp (h p (by omega) (by omega))
    exact ⟨b :: bs, by simp [streamBits, hb, hbs]⟩

/-- Under the invariants every bit that remains has a value (R52, R22). -/
theorem streamBits_of_inv {s : State} (hc : CursorInv s) (hb : BufferInv s) {n : Nat} (hn : n ≤ s.rem) :
    ∃ bits, streamBits s.buf s.len s.pos n = some bits := by
  apply streamBits_isSome
  intro q _ h2
  unfold CursorInv at hc
  have := hb.2 (q / 8) (by omega)
  simp [streamBit, this]

/-! ### Attempts -/

@[simp] theorem andThen_done (s : State) (next : State → Attempt) : (Attempt.done s).andThen next = next s := rfl

@[simp] theorem andThen_raised (e : DecodeError) (s : State) (next : State → Attempt) :
    (Attempt.raised e s).andThen next = .raised e s := rfl

theorem andThen_assoc (a : Attempt) (f g : State → Attempt) :
    (a.andThen f).andThen g = a.andThen fun s => (f s).andThen g := by
  cases a <;> rfl

@[simp] theorem finish_done (s : State) : finish (.done s) = .next s := rfl

@[simp] theorem finish_raised (e : DecodeError) (s : State) : finish (.raised e s) = .next (takeError e s) := rfl

/-- An element's end is always a next state. -/
theorem finish_next (a : Attempt) : ∃ t, finish a = .next t := by
  cases a <;> simp

/-! ### The BitCursor and the operands -/

theorem consume_of_le {w : Nat} (v : BitVec w) {s : State} (h : w ≤ s.rem) :
    consume w v s = .done (s.advance w v) := by
  simp [consume, Nat.not_lt.mpr h]

theorem consume_of_lt {w : Nat} (v : BitVec w) {s : State} (h : s.rem < w) :
    consume w v s = .raised .unexpectedEnd s := by
  simp [consume, h]

/-- The tag of an element whose first bit is 0, where both bits remain (R126, R127). -/
theorem readTag_of_le (b : Bit) {s : State} (h : 2 ≤ s.rem) :
    readTag b s = .done { s with
      pos := s.pos + 2, rem := s.rem - 2, b1 := 0, b2 := b, port := b.setWidth 32 } := by
  simp only [readTag, readB1, consume_of_le (0 : Bit) (show 1 ≤ s.rem by omega), andThen_done, readB2]
  rw [consume_of_le _ (by simp only [State.advance]; omega)]
  simp only [andThen_done, State.advance]
  congr 2

/-- The tag where the stream ends in it (R126, R127). -/
theorem readTag_of_lt (b : Bit) {s : State} (h : s.rem < 2) :
    ∃ t, readTag b s = .raised .unexpectedEnd t := by
  by_cases h1 : s.rem < 1
  · exact ⟨s, by simp only [readTag, readB1, consume_of_lt (0 : Bit) h1, andThen_raised]⟩
  · simp only [readTag, readB1, consume_of_le (0 : Bit) (show 1 ≤ s.rem by omega), readB2, andThen_done]
    rw [consume_of_lt _ (by simp only [State.advance]; omega)]
    exact ⟨_, rfl⟩

/-- One turn of `VARINT()`, where its group remains (R130). -/
theorem varint_cons (g : Byte) (gs : List Byte) {s : State} (h : 8 ≤ s.rem) :
    varint (g :: gs) s =
      let t : State := { s.advance 8 g with vbyte := g }
      let u : State := { t with vacc := s.vacc ||| groupShare g s.vidx }
      if s.vidx = 9 ∧ Config.varLastMax < g then .raised .runTooLong t
      else if contFlag g then varint gs { u with vidx := s.vidx + 1 }
      else if 1 ≤ s.vidx ∧ g = 0 then .raised .invalidRun u
      else .done u := by
  rw [varint, consume_of_le g h, andThen_done]; rfl

/-- The payload of a group, its low seven bits (R74). -/
theorem payload_toNat (g : Byte) : (g &&& 0x7F#8).toNat = g.toNat % 128 := by
  simp; exact Nat.and_two_pow_sub_one_eq_mod g.toNat 7

/-- A group's share of the run length, where it fits (R130, R131). -/
theorem groupShare_toNat (g : Byte) (j : BitVec 4) (h : 7 * j.toNat ≤ 57 ∨ j.toNat = 9 ∧ g.toNat ≤ 1) :
    (groupShare g j).toNat = 2 ^ (7 * j.toNat) * (g.toNat % 128) := by
  have hg : g.toNat % 128 < 128 := Nat.mod_lt _ (by norm_num)
  simp only [groupShare, BitVec.toNat_shiftLeft, BitVec.toNat_setWidth, payload_toNat]
  rw [Nat.mod_eq_of_lt (by omega : g.toNat % 128 < 2 ^ 64), Nat.shiftLeft_eq, mul_comm]
  apply Nat.mod_eq_of_lt
  rcases h with h | ⟨h, h2⟩
  · calc 2 ^ (7 * j.toNat) * (g.toNat % 128) < 2 ^ (7 * j.toNat) * 2 ^ 7 :=
          Nat.mul_lt_mul_of_pos_left (by omega) (by positivity)
      _ = 2 ^ (7 * j.toNat + 7) := by rw [pow_add]
      _ ≤ 2 ^ 64 := Nat.pow_le_pow_right (by norm_num) (by omega)
  · rw [h]
    have : g.toNat % 128 ≤ 1 := by omega
    norm_num; omega

/-- Putting a share above the bits already gathered adds it: R130's OR is R78's sum. -/
theorem or_eq_add {a b : RunLen} {i c : Nat} (ha : a.toNat < 2 ^ i) (hb : b.toNat = 2 ^ i * c) :
    a ||| b = a + b := by
  apply BitVec.eq_of_toNat_eq
  have hsum : a.toNat + b.toNat = a.toNat ||| b.toNat := by
    rw [hb, Nat.or_comm, add_comm, Nat.two_pow_add_eq_or_of_lt ha]
  rw [BitVec.toNat_or, BitVec.toNat_add, hsum, Nat.mod_eq_of_lt]
  have := (a ||| b).isLt
  rwa [BitVec.toNat_or] at this

/-! ### What reading an element leaves alone -/

/-- The frame of every read and check inside an element: it moves the cursor forward, and writes no
register but `VERSION`, `FIRST`, `B1`, `B2`, `VBYTE`, `VIDX`, `VACC` and the port. -/
structure ReadFrame (s t : State) : Prop where
  cfg : t.cfg = s.cfg
  buf : t.buf = s.buf
  len : t.len = s.len
  runlen : t.runlen = s.runlen
  runs : t.runs = s.runs
  ridx : t.ridx = s.ridx
  acc : t.acc = s.acc
  state : t.state = s.state
  out : t.out = s.out
  phase : t.phase = s.phase
  status : t.status = s.status
  start : t.start = s.start
  draws : t.draws = s.draws
  sum : t.pos + t.rem = s.pos + s.rem
  pos : s.pos ≤ t.pos

theorem ReadFrame.refl (s : State) : ReadFrame s s := by constructor <;> simp

theorem ReadFrame.trans {s t u : State} (h : ReadFrame s t) (k : ReadFrame t u) : ReadFrame s u where
  cfg := k.cfg.trans h.cfg
  buf := k.buf.trans h.buf
  len := k.len.trans h.len
  runlen := k.runlen.trans h.runlen
  runs := k.runs.trans h.runs
  ridx := k.ridx.trans h.ridx
  acc := k.acc.trans h.acc
  state := k.state.trans h.state
  out := k.out.trans h.out
  phase := k.phase.trans h.phase
  status := k.status.trans h.status
  start := k.start.trans h.start
  draws := k.draws.trans h.draws
  sum := k.sum.trans h.sum
  pos := h.pos.trans k.pos

/-- The frame of an attempt: done or raised, the registers at its end are framed. -/
def AttemptFrame (s : State) : Attempt → Prop
  | .done t => ReadFrame s t
  | .raised _ t => ReadFrame s t

theorem AttemptFrame.of_frame {s t : State} {a : Attempt} (h : ReadFrame s t) (k : AttemptFrame t a) :
    AttemptFrame s a := by
  cases a <;> exact h.trans k

theorem AttemptFrame.andThen {s : State} {a : Attempt} {next : State → Attempt}
    (h : AttemptFrame s a) (k : ∀ t, AttemptFrame t (next t)) : AttemptFrame s (a.andThen next) := by
  cases a with
  | done t => exact (k t).of_frame h
  | raised e t => exact h

theorem consume_frame (w : Nat) (v : BitVec w) (s : State) : AttemptFrame s (consume w v s) := by
  unfold consume
  split_ifs
  · exact .refl s
  · constructor <;> simp [State.advance]; omega

theorem readVersion_frame (v : BitVec 2) (s : State) : AttemptFrame s (readVersion v s) :=
  (consume_frame _ _ _).andThen fun t => by constructor <;> simp

theorem checkVersion_frame (s : State) : AttemptFrame s (checkVersion s) := by
  unfold checkVersion
  split_ifs <;> exact ReadFrame.refl s

theorem readFirst_frame (f : Bit) (s : State) : AttemptFrame s (readFirst f s) :=
  (consume_frame _ _ _).andThen fun t => by constructor <;> simp

theorem readB1_frame (b : Bit) (s : State) : AttemptFrame s (readB1 b s) :=
  (consume_frame _ _ _).andThen fun t => by constructor <;> simp

theorem readB2_frame (b : Bit) (s : State) : AttemptFrame s (readB2 b s) :=
  (consume_frame _ _ _).andThen fun t => by constructor <;> simp

theorem readTag_frame (b : Bit) (s : State) : AttemptFrame s (readTag b s) :=
  (readB1_frame _ _).andThen fun _ => readB2_frame _ _

theorem varint_frame (gs : List Byte) (s : State) : AttemptFrame s (varint gs s) := by
  induction gs generalizing s with
  | nil => exact .refl s
  | cons g gs ih =>
    rw [varint]
    refine (consume_frame _ _ _).andThen fun t => ?_
    simp only
    split_ifs
    · constructor <;> simp
    · exact (ih _).of_frame (by constructor <;> simp)
    · constructor <;> simp
    · constructor <;> simp

/-- An element that raises ends the decode, and of what the host may see only `PHASE` and `STATUS`
change (R176). -/
theorem endsWithError_of_raised {s t : State} {e : DecodeError} {a : Attempt}
    (h : a = .raised e t) (k : AttemptFrame s a) : ∃ u, finish a = .next u ∧ EndsWithError e s u := by
  subst h
  exact ⟨takeError e t, rfl, rfl, rfl, k.out, k.buf, k.len, k.cfg, k.start, k.draws⟩

/-! ### The steps after a START -/

theorem steps_zero (s : State) : steps 0 s = .next s := rfl

theorem steps_succ {k : Nat} {s t : State} (h : step s = .next t) : steps (k + 1) s = steps k t := by
  have : Sys2Proof.core.step s = .next t := h
  simp only [steps, Host.Core.run, this]
  rfl

/-- What every step keeps, any number of steps keeps. -/
theorem steps_keep {P : State → Prop} (keep : ∀ s t, P s → step s = .next t → P t) {k : Nat} {s t : State}
    (hs : P s) (h : steps k s = .next t) : P t := by
  induction k generalizing s with
  | zero => cases h; exact hs
  | succ k ih =>
    cases hu : step s with
    | next u => rw [steps_succ hu] at h; exact ih (keep s u hs hu) h
    | fault f =>
      have : Sys2Proof.core.step s = .fault f := hu
      simp [steps, Host.Core.run, this] at h
    | refused r =>
      have : Sys2Proof.core.step s = .refused r := hu
      simp [steps, Host.Core.run, this] at h

/-- A waiting machine waits for ever. -/
theorem steps_of_wait {s : State} (h : step s = .next s) (k : Nat) : steps k s = .next s := by
  induction k with
  | zero => rfl
  | succ k ih => rw [steps_succ h, ih]

end Sys2Proof.Laws
end

