-- ==== Sys2Proof/Laws/PerInstr.lean ====
section
/-! SUPPORT. The family stated per instruction: the encoder writes as many bits as the element has
(spec/30_encoding.md R71 to R75). -/

namespace Sys2Proof.Laws.EncodeLength

/-- The encoding of an instruction is as long as 30_encoding.md says the element is. -/
def Statement : Instr → Prop := fun i => (encode i).length = i.bits

theorem hdr (version : BitVec 2) (first : Bit) : Statement (.hdr version first) := by
  simp [Statement, encode, Instr.bits]

theorem run1 : Statement .run1 := rfl

theorem runlit (lit : BitVec 4) : Statement (.runlit lit) := by
  simp [Statement, encode, Instr.bits]

theorem runvar (groups : List Byte) : Statement (.runvar groups) := by
  simp [Statement, encode, Instr.bits]; omega

theorem runpad (pad : Nat) : Statement (.runpad pad) := by
  simp [Statement, encode, Instr.bits]; omega

theorem nextbits (n : Nat) : Statement (.nextbits n) := rfl

end Sys2Proof.Laws.EncodeLength
end

