-- ==== Sys2Proof/Laws/Step.lean ====
section
/-! SUPPORT. What an instruction and a step can do, once: whatever answers a next state is one of the cases
here (spec/10_state.md R36). -/

namespace Sys2Proof.Laws

open Sys2Proof.Machine Sys2Proof.Safety

/-! ### The part of an element that may raise -/

/-- `HDR` up to its last register (R115). -/
def hdrReads (version : BitVec 2) (first : Bit) (s : State) : Attempt :=
  (readVersion version s).andThen fun s => (checkVersion s).andThen fun s => readFirst first s

/-- `RUNLIT` up to its last read (R129). -/
def runlitReads (lit : BitVec 4) (s : State) : Attempt :=
  (readTag 1 s).andThen fun s => consume 4 lit s

/-- `RUNVAR` up to its last read (R130). -/
def runvarReads (groups : List Byte) (s : State) : Attempt :=
  (readTag 0 s).andThen fun s => varint groups { s with vacc := 0, vidx := 0 }

theorem execHdr_eq (version : BitVec 2) (first : Bit) (s : State) :
    execHdr version first s
      = finish ((hdrReads version first s).andThen fun s => .done { s with phase := .runs }) := by
  simp only [hdrReads, andThen_assoc]; rfl

theorem execRunlit_eq (lit : BitVec 4) (s : State) :
    execRunlit lit s = finish ((runlitReads lit s).andThen fun s => .done (s.withRun (literalRun lit))) := by
  simp only [runlitReads, andThen_assoc]; rfl

theorem execRunvar_eq (groups : List Byte) (s : State) :
    execRunvar groups s = finish ((runvarReads groups s).andThen fun s => .done (s.withRun s.vacc)) := by
  simp only [runvarReads, andThen_assoc]; rfl

theorem hdrReads_frame (version : BitVec 2) (first : Bit) (s : State) :
    AttemptFrame s (hdrReads version first s) :=
  (readVersion_frame _ _).andThen fun _ => (checkVersion_frame _).andThen fun _ => readFirst_frame _ _

theorem runlitReads_frame (lit : BitVec 4) (s : State) : AttemptFrame s (runlitReads lit s) :=
  (readTag_frame _ _).andThen fun _ => consume_frame _ _ _

theorem runvarReads_frame (groups : List Byte) (s : State) : AttemptFrame s (runvarReads groups s) :=
  (readTag_frame _ _).andThen fun _ => (varint_frame _ _).of_frame (by constructor <;> simp)

/-- Reading a run element does not touch the header's registers. -/
def HeaderKept (s : State) : Attempt → Prop
  | .done t => t.version = s.version ∧ t.first = s.first
  | .raised _ t => t.version = s.version ∧ t.first = s.first

theorem HeaderKept.of_kept {s t : State} {a : Attempt}
    (h : t.version = s.version ∧ t.first = s.first) (k : HeaderKept t a) : HeaderKept s a := by
  cases a <;> exact ⟨k.1.trans h.1, k.2.trans h.2⟩

theorem HeaderKept.andThen {s : State} {a : Attempt} {next : State → Attempt}
    (h : HeaderKept s a) (k : ∀ t, HeaderKept t (next t)) : HeaderKept s (a.andThen next) := by
  cases a with
  | done t => exact (k t).of_kept h
  | raised e t => exact h

theorem consume_headerKept (w : Nat) (v : BitVec w) (s : State) : HeaderKept s (consume w v s) := by
  unfold consume
  split_ifs <;> simp [HeaderKept]

theorem readTag_headerKept (b : Bit) (s : State) : HeaderKept s (readTag b s) := by
  refine HeaderKept.andThen ((consume_headerKept _ _ _).andThen fun t => ?_) fun t =>
    (consume_headerKept _ _ _).andThen fun u => ?_ <;> simp [HeaderKept]

theorem varint_headerKept (gs : List Byte) (s : State) : HeaderKept s (varint gs s) := by
  induction gs generalizing s with
  | nil => simp [varint, HeaderKept]
  | cons g gs ih =>
    rw [varint]
    refine (consume_headerKept _ _ _).andThen fun t => ?_
    simp only
    split_ifs
    · simp [HeaderKept]
    · exact (ih _).of_kept ⟨rfl, rfl⟩
    · simp [HeaderKept]
    · simp [HeaderKept]

theorem runvarReads_headerKept (groups : List Byte) (s : State) : HeaderKept s (runvarReads groups s) :=
  (readTag_headerKept _ _).andThen fun _ => (varint_headerKept _ _).of_kept ⟨rfl, rfl⟩

/-- A `VARINT()` that ends has consumed something. -/
theorem varint_moves {gs : List Byte} {s t : State} (h : varint gs s = .done t) : s.pos < t.pos := by
  match gs with
  | [] => simp [varint] at h
  | g :: gs =>
    by_cases h8 : 8 ≤ s.rem
    · rw [varint_cons g gs h8] at h
      simp only at h
      split_ifs at h
      · have frame := varint_frame gs
          { s.advance 8 g with vbyte := g, vacc := s.vacc ||| groupShare g s.vidx, vidx := s.vidx + 1 }
        rw [h] at frame
        have := frame.pos
        simp at this; omega
      · simp at h; simp [← h]
    · rw [varint, consume_of_lt g (by omega), andThen_raised] at h; simp at h

/-! ### An element -/

/-- A run read: framed, the header's registers kept, and at least one bit consumed. -/
structure RunRead (s t : State) : Prop where
  frame : ReadFrame s t
  rem : t.rem < s.rem
  version : t.version = s.version
  first : t.first = s.first

/-- What an element can do: end the decode with an error, enter the run loop, or append a run. -/
inductive ElementResult (s : State) : Instr → State → Prop
  | raised {i : Instr} (e : DecodeError) (t : State) (frame : ReadFrame s t) :
      ElementResult s i (takeError e t)
  | header {f : Bit} (h : 3 ≤ s.rem) :
      ElementResult s (.hdr 0 f) { s with
        pos := s.pos + 3, rem := s.rem - 3, version := 0, first := f, phase := .runs
        port := f.setWidth 32 }
  | run {i : Instr} (hi : ∀ v f, i ≠ .hdr v f) (t : State) (r : RunLen) (read : RunRead s t) :
      ElementResult s i (t.withRun r)

theorem execHdr_cases {v : BitVec 2} {f : Bit} {s t : State} (h : execHdr v f s = .next t) :
    ElementResult s (.hdr v f) t := by
  rw [execHdr_eq] at h
  have frame := hdrReads_frame v f s
  cases ha : hdrReads v f s with
  | raised e u => rw [ha] at h frame; simp only [andThen_raised, finish_raised] at h; cases h; exact .raised e u frame
  | done u =>
    rw [ha] at h
    simp only [andThen_done, finish_done] at h
    cases h
    by_cases h2 : 2 ≤ s.rem
    · simp only [hdrReads, readVersion, consume_of_le v h2, andThen_done, checkVersion] at ha
      split_ifs at ha with hv
      · simp only [Config.supportedVersion] at hv
        subst hv
        simp only [andThen_done, readFirst] at ha
        by_cases h3 : 3 ≤ s.rem
        · rw [consume_of_le f (by simp only [State.advance]; omega)] at ha
          simp only [andThen_done, Attempt.done.injEq, State.advance] at ha
          subst ha
          exact .header h3
        · rw [consume_of_lt f (by simp only [State.advance]; omega)] at ha
          simp at ha
      · simp at ha
    · simp [hdrReads, readVersion, consume_of_lt v (by omega : s.rem < 2)] at ha

theorem execRun1_cases {s t : State} (h : execRun1 s = .next t) : ElementResult s .run1 t := by
  by_cases h1 : 1 ≤ s.rem
  · simp only [execRun1, readB1, consume_of_le (1 : Bit) h1, andThen_done, finish_done] at h
    cases h
    refine .run (by simp) _ _ ⟨?_, by simp; omega, rfl, rfl⟩
    constructor <;> simp; omega
  · simp only [execRun1, readB1, consume_of_lt (1 : Bit) (by omega : s.rem < 1), andThen_raised,
      finish_raised] at h
    cases h
    exact .raised _ _ (.refl s)

theorem execRunlit_cases {lit : BitVec 4} {s t : State} (h : execRunlit lit s = .next t) :
    ElementResult s (.runlit lit) t := by
  rw [execRunlit_eq] at h
  have frame := runlitReads_frame lit s
  cases ha : runlitReads lit s with
  | raised e u => rw [ha] at h frame; simp only [andThen_raised, finish_raised] at h; cases h; exact .raised e u frame
  | done u =>
    rw [ha] at h frame
    simp only [andThen_done, finish_done] at h
    cases h
    by_cases h2 : 2 ≤ s.rem
    · simp only [runlitReads, readTag_of_le 1 h2, andThen_done] at ha
      by_cases h6 : 6 ≤ s.rem
      · rw [consume_of_le lit (by simp only; omega)] at ha
        simp only [Attempt.done.injEq] at ha
        subst ha
        exact .run (by simp) _ _ ⟨frame, by simp; omega, rfl, rfl⟩
      · rw [consume_of_lt lit (by simp only; omega)] at ha
        simp at ha
    · obtain ⟨w, hw⟩ := readTag_of_lt 1 (by omega : s.rem < 2)
      simp only [runlitReads, hw, andThen_raised] at ha
      cases ha

theorem execRunvar_cases {groups : List Byte} {s t : State} (h : execRunvar groups s = .next t) :
    ElementResult s (.runvar groups) t := by
  rw [execRunvar_eq] at h
  have frame := runvarReads_frame groups s
  have kept := runvarReads_headerKept groups s
  cases ha : runvarReads groups s with
  | raised e u => rw [ha] at h frame; simp only [andThen_raised, finish_raised] at h; cases h; exact .raised e u frame
  | done u =>
    rw [ha] at h frame kept
    simp only [andThen_done, finish_done] at h
    cases h
    refine .run (by simp) _ _ ⟨frame, ?_, kept.1, kept.2⟩
    by_cases h2 : 2 ≤ s.rem
    · simp only [runvarReads, readTag_of_le 0 h2, andThen_done] at ha
      have := varint_moves ha
      have := frame.sum
      simp at *; omega
    · obtain ⟨w, hw⟩ := readTag_of_lt 0 (by omega : s.rem < 2)
      simp only [runvarReads, hw, andThen_raised] at ha
      cases ha

theorem execRunpad_cases {pad : Nat} {s t : State} (h : execRunpad pad s = .next t) :
    ElementResult s (.runpad pad) t := by
  by_cases h2 : 2 ≤ s.rem
  · simp only [execRunpad, readTag_of_le 0 h2, andThen_done, finish_done] at h
    cases h
    refine .run (by simp) _ _ ⟨?_, by simp; omega, rfl, rfl⟩
    constructor <;> simp <;> omega
  · obtain ⟨w, hw⟩ := readTag_of_lt 0 (by omega : s.rem < 2)
    have frame := readTag_frame 0 s
    rw [hw] at frame
    simp only [execRunpad, hw, andThen_raised, finish_raised] at h
    cases h
    exact .raised _ _ frame

/-- What an element that answers a next state has done. -/
theorem exec_element_cases {i : Instr} {s t : State} (hi : ∀ n, i ≠ .nextbits n)
    (h : exec i s = .next t) : ElementResult s i t := by
  cases i with
  | hdr v f => exact execHdr_cases h
  | run1 => exact execRun1_cases h
  | runlit lit => exact execRunlit_cases h
  | runvar gs => exact execRunvar_cases h
  | runpad pad => exact execRunpad_cases h
  | nextbits n => exact absurd rfl (hi n)

/-- An element always answers a next state: with an error it takes the error's. -/
theorem exec_element_next {i : Instr} (s : State) (hi : ∀ n, i ≠ .nextbits n) :
    ∃ t, exec i s = .next t := by
  cases i with
  | nextbits n => exact absurd rfl (hi n)
  | _ => exact finish_next _

/-! ### A step -/

/-- What a step can do: the rows of R36's table, and waiting. -/
inductive StepResult (s : State) : State → Prop
  | start (c : StartCommand) (hc : s.start = some c) (hs : startable s = true)
      (ha : s.cfg.admitsLen c.len = true) : StepResult s (startDecode c s)
  | wait (hc : s.start = none) (hs : startable s = true) : StepResult s s
  | raised (hc : s.start = none) (hp : s.phase = .header ∨ s.phase = .runs) (e : DecodeError) (t : State)
      (frame : ReadFrame s t) : StepResult s (takeError e t)
  | header (hc : s.start = none) (hp : s.phase = .header) (f : Bit) (h : 3 ≤ s.rem) :
      StepResult s { s with
        pos := s.pos + 3, rem := s.rem - 3, version := 0, first := f, phase := .runs
        port := f.setWidth 32 }
  | run (hc : s.start = none) (hp : s.phase = .runs) (hr : 0 < s.rem) (t : State) (r : RunLen)
      (read : RunRead s t) : StepResult s (t.withRun r)
  | expandStart (hc : s.start = none) (hp : s.phase = .runs) (hr : s.rem = 0) :
      StepResult s (expandStart s)
  | expandRun (hc : s.start = none) (hp : s.phase = .expand) (r : RunLen)
      (h : s.runs[s.ridx]? = some r) (hfit : s.cfg.holdsPosition (s.acc + r.toNat) = true) :
      StepResult s (expandRun r s)
  | expandEnd (hc : s.start = none) (hp : s.phase = .expand) (h : s.runs[s.ridx]? = none) :
      StepResult s (expandEnd s)

theorem startStep_cases {c : StartCommand} {s t : State} (hc : s.start = some c)
    (h : startStep c s = .next t) : StepResult s t := by
  simp only [startStep] at h
  have accepted (hs : startable s = true) (h : acceptStart c s = .next t) : StepResult s t := by
    simp only [acceptStart] at h
    split_ifs at h with ha
    cases h
    exact .start c hc hs ha
  cases hp : s.phase <;> simp only [hp] at h
  case idle => exact accepted (by simp [startable, busy, hp]) h
  case done => exact accepted (by simp [startable, busy, hp]) h
  all_goals cases h

theorem decoderStep_header_cases {s t : State} (hc : s.start = none) (hp : s.phase = .header)
    (h : runElement (fetchHdr s) s = .next t) : StepResult s t := by
  unfold runElement at h
  split at h
  · cases h
  · rename_i i hi
    simp only [fetchHdr, Option.map_eq_some_iff] at hi
    obtain ⟨bits, _, hb⟩ := hi
    obtain ⟨v, f, hvf⟩ := elementOf_decodeHdr bits
    rw [hvf] at hb
    subst hb
    cases exec_element_cases (by simp) h with
    | raised e u frame => exact .raised hc (.inl hp) e u frame
    | header h3 => exact .header hc hp _ h3
    | run hi => exact absurd rfl (hi v f)

theorem decoderStep_run_cases {s t : State} (hc : s.start = none) (hp : s.phase = .runs) (hr : 0 < s.rem)
    (h : runElement (fetchRun s) s = .next t) : StepResult s t := by
  unfold runElement at h
  split at h
  · cases h
  · rename_i i hi
    simp only [fetchRun, Option.map_eq_some_iff] at hi
    obtain ⟨bits, _, hb⟩ := hi
    have kind := elementOf_decodeRun bits
    rw [hb] at kind
    cases exec_element_cases kind.1 h with
    | raised e u frame => exact .raised hc (.inr hp) e u frame
    | header h3 => exact absurd rfl (kind.2 _ _)
    | run _ u r read => exact .run hc hp hr u r read

/-- What a step that answers a next state has done (R36). -/
theorem step_cases {s t : State} (h : step s = .next t) : StepResult s t := by
  simp only [step, machineStep] at h
  cases hc : s.start with
  | some c => rw [hc] at h; exact startStep_cases hc h
  | none =>
    simp only [hc, decoderStep] at h
    cases hp : s.phase <;> simp only [hp] at h
    · cases h; exact .wait hc (by simp [startable, busy, hp])
    · exact decoderStep_header_cases hc hp h
    · split_ifs at h with hb <;> simp only [bitsRemain, decide_eq_true_iff] at hb
      · exact decoderStep_run_cases hc hp hb h
      · cases h; exact .expandStart hc hp (by omega)
    · simp only [expandNext] at h
      split at h
      · rename_i hn; cases h; exact .expandEnd hc hp hn
      · rename_i r hn
        split_ifs at h with hfit
        cases h; exact .expandRun hc hp r hn hfit
    · cases h; exact .wait hc (by simp [startable, busy, hp])

end Sys2Proof.Laws
end

