-- ==== Sys2Proof/Tests/Slice0.lean ====
section
/-! SUPPORT. Tests: the decoding of words written out from spec/30_encoding.md, one step of each element with
the result that spec/95_test_vectors.md gives it, and for each statement with hypotheses a concrete case that
meets them. -/

namespace Sys2Proof.Tests

open Sys2Proof.Machine Sys2Proof.Safety

/-- The machine at stream bit `pos` of a buffer, in a phase; the other registers as after power-on. -/
def onStream (phase : Phase) (pos : Nat) (data : List Byte) : State :=
  { State.reset with
    buf := attach data (fun _ => 0) data.length
    len := data.length, pos := pos, rem := 8 * data.length - pos, phase := phase }

/-- What a view shows of the next state, if there is one. -/
def after {α : Type} (view : State → α) (o : Host.Outcome State Fault Refusal) : Option α :=
  match o with
  | .next s => some (view s)
  | .fault _ => none
  | .refused _ => none

/-- The error a step ended in. -/
def errorOf (s : State) : Phase × Status := (s.phase, s.status)

/-! ### Decoding: bits from 30_encoding.md, in stream order -/

theorem test_decode_hdr : decodeHdr [false, false, true] = .ok (.hdr 0 1) := by decide

theorem test_decode_hdr_lsb_first : decodeHdr [true, false, false] = .ok (.hdr 1 0) := by decide

theorem test_decode_run1 : decodeRun [true, false, false] = .ok .run1 := by decide

/-- `0 1` then 8 as `0 0 0 1`: the least significant bit comes first. -/
theorem test_decode_runlit :
    decodeRun [false, true, false, false, false, true] = .ok (.runlit 8) := by decide

/-- Groups 0x85, 0x80, 0x01 (V84). -/
theorem test_decode_runvar :
    decodeRun [false, false,
        true, false, true, false, false, false, false, true,
        false, false, false, false, false, false, false, true,
        true, false, false, false, false, false, false, false]
      = .ok (.runvar [0x85, 0x80, 0x01]) := by decide

/-- A zero tail of 8 bits after the tag is a group and no pad (V103); of 7 bits it is a pad (V102). -/
theorem test_decode_runpad :
    decodeRun (List.replicate 10 false) = .ok (.runvar [0])
      ∧ decodeRun (List.replicate 9 false) = .ok (.runpad 7) := by decide

theorem test_decode_refuses_by_name :
    decodeHdr [false] = .error .version
      ∧ decodeRun [false, true, true, true, true] = .error .literal
      ∧ decodeRun [false, false, false, true] = .error (.group []) := by decide

theorem test_decodeTableWord :
    decodeTableWord 3 4 = some (.hdr 0 1)
      ∧ decodeTableWord 8 1 = some .run1
      ∧ decodeTableWord 8 0x16 = some (.runlit 5)
      ∧ decodeTableWord 16 0x10 = some (.runvar [4])
      ∧ decodeTableWord 8 0 = some (.runpad 6) := by decide

/-- The listing of P2 assembles to its buffer. -/
theorem test_assemble :
    assemble [.element (.hdr 0 0), .runvar 300, .element .run1, .element (.runlit 3), .run 3, .align]
      = some [0x80, 0x55, 0xA0, 0xE3, 0x00] := by decide

/-- The continuation flag of a group is its bit 7 (R74). -/
theorem test_contFlag : contFlag 0x80 = true ∧ contFlag 0x7F = false := by decide

/-! ### Well-formedness: each check refuses an ill-formed term -/

theorem test_wf_runvar_empty : (Instr.runvar []).wf = false := by decide
theorem test_wf_runvar_unended : (Instr.runvar [0x81]).wf = false := by decide
theorem test_wf_runvar_after_end : (Instr.runvar [0x01, 0x01]).wf = false := by decide
theorem test_wf_runvar_eleven : (Instr.runvar (List.replicate 11 0x80)).wf = false := by decide
theorem test_wf_runpad_zero : (Instr.runpad 0).wf = false := by decide
theorem test_wf_runpad_eight : (Instr.runpad 8).wf = false := by decide
theorem test_wf_nextbits_33 : (Instr.nextbits 33).wf = false := by decide

theorem test_accepted :
    (Instr.hdr 1 0).accepted = false
      ∧ groupsAccepted (List.replicate 9 0xFF ++ [0x02]) = false
      ∧ groupsAccepted [0x81, 0x00] = false
      ∧ groupsAccepted [0x00] = true
      ∧ groupsAccepted (List.replicate 9 0x80 ++ [0x01]) = true := by decide

/-! ### One step of each element -/

/-- P1, row 2. -/
theorem test_hdr :
    after (fun s => (s.pos, s.rem, s.version, s.first, s.phase)) (step (onStream .header 0 [0xB4, 0x00]))
      = some (3, 13, 0, 1, .runs) := by decide

/-- V38: version 3. -/
theorem test_hdr_version :
    after errorOf (step (onStream .header 0 [0xFF, 0xFF])) = some (.done, .error .invalidVersion) := by decide

/-- P2, the second element. -/
theorem test_run1 :
    after (fun s => (s.pos, s.rem, s.runs)) (step (onStream .runs 21 [0x80, 0x55, 0xA0, 0xE3, 0x00]))
      = some (22, 18, [1]) := by decide

/-- V48: the literal crosses a byte boundary. -/
theorem test_runlit :
    after (fun s => (s.pos, s.rem, s.runs)) (step (onStream .runs 3 [0x14, 0x01]))
      = some (9, 7, [8]) := by decide

/-- V65: three zero bits after the tag `0 1`. -/
theorem test_runlit_short :
    after errorOf (step (onStream .runs 3 [0x14])) = some (.done, .error .unexpectedEnd) := by decide

/-- V81: the largest run. -/
theorem test_runvar :
    after (fun s => (s.pos, s.runs))
        (step (onStream .runs 3 [0xE0, 0xFF, 0xFF, 0xFF, 0xFF, 0xFF, 0xFF, 0xFF, 0xFF, 0x3F, 0x00]))
      = some (85, [0xFFFFFFFFFFFFFFFF]) := by decide

/-- V85, V92, V95: the three errors of a `RUNVAR`. -/
theorem test_runvar_errors :
    after errorOf (step (onStream .runs 3 [0x20, 0x10, 0x00])) = some (.done, .error .invalidRun)
      ∧ after errorOf (step (onStream .runs 3
          [0x00, 0x10, 0x10, 0x10, 0x10, 0x10, 0x10, 0x10, 0x10, 0x30, 0x10, 0x00]))
        = some (.done, .error .runTooLong)
      ∧ after errorOf (step (onStream .runs 3 [0x20, 0x10])) = some (.done, .error .unexpectedEnd) := by
  decide

/-- V101: the shortest pad. -/
theorem test_runpad :
    after (fun s => (s.pos, s.rem, s.runs)) (step (onStream .runs 5 [0x1C])) = some (8, 0, [0]) := by decide

/-- V104: the one bit after the tag is set. -/
theorem test_runpad_not :
    after errorOf (step (onStream .runs 5 [0x9C])) = some (.done, .error .unexpectedEnd) := by decide

/-- V16. -/
theorem test_nextbits :
    after (fun s => (s.port, s.pos, s.rem)) (exec (.nextbits 32) (onStream .runs 3 [0xA5, 0x3C, 0xF0, 0x0F, 0x81]))
      = some (0x21FE0794, 35, 5) := by decide

/-- V20: one bit short, nothing consumed. -/
theorem test_nextbits_short :
    after (fun s => (s.status, s.pos, s.rem))
        (exec (.nextbits 2) (onStream .runs 39 [0xA5, 0x3C, 0xF0, 0x0F, 0x81]))
      = some (.error .unexpectedEnd, 39, 1) := by decide

/-- V29, V30, V33, V35. -/
theorem test_tailZero :
    tailZeroAt (onStream .runs 11 [0xB4, 0x00]) = true
      ∧ tailZeroAt (onStream .runs 11 [0xB4, 0x08]) = false
      ∧ tailZeroAt (onStream .runs 8 [0x3C, 0x00]) = false
      ∧ tailZeroAt (onStream .runs 7 [0x9C]) = false := by decide

/-- V112, its fourth run. -/
theorem test_expandRun :
    after (fun s => (s.out, s.acc, s.state))
        (step { onStream .expand 16 [0x00, 0x00] with
          runs := [2, 3, 0, 4, 1, 0], ridx := 3, acc := 5, state := 1, out := [2, 3, 4] })
      = some ([2, 3, 4, 5, 6, 7, 8], 9, 0) := by decide

/-- A table word runs as the first instruction after power-on. -/
theorem test_withFetchWord :
    after (fun s => s.runs) (step (State.reset.withFetchWord 8 0x16)) = some [5]
      ∧ after (fun s => (s.first, s.phase)) (step (State.reset.withFetchWord 3 4)) = some (1, .runs) := by
  decide

/-! ### For each statement with hypotheses, a case that meets them all -/

/-- A busy or waiting machine with a START at its port. -/
def withStart (phase : Phase) (data : List Byte) (len : Nat) : State :=
  { State.reset with phase := phase }.issue ⟨data, len⟩

/-- The invariants at a concrete state are facts about numbers and a short list. -/
theorem bufferInv_of {s : State} (h : memoryWf s.buf = true)
    (k : ∀ a, a < s.len → (memRead s.buf s.len a).isSome = true) : BufferInv s := ⟨h, k⟩

theorem test_hyps_StartBeginsAFreshDecode :
    startable (withStart .idle [0xB4, 0x00] 2) = true
      ∧ startable (withStart .done [0xB4, 0x00] 2) = true
      ∧ (withStart .done [0xB4, 0x00] 2).start = some ⟨[0xB4, 0x00], 2⟩
      ∧ (withStart .done [0xB4, 0x00] 2).cfg.admitsLen 2 = true
      ∧ [0xB4, (0x00 : Byte)][0]? = some 0xB4 ∧ [0xB4, (0x00 : Byte)][1]? = some 0x00 := by decide

theorem test_hyps_StartWhileBusyIsRefused :
    busy (withStart .header [0x04] 1) = true ∧ busy (withStart .runs [0x04] 1) = true
      ∧ busy (withStart .expand [0x04] 1) = true
      ∧ (withStart .expand [0x04] 1).start = some ⟨[0x04], 1⟩ := by decide

theorem test_hyps_StartBeyondLenMaxIsRefused :
    let s : State := { withStart .idle [0x04, 0x00] 2 with cfg := ⟨some 1, none⟩ }
    let t : State := { withStart .idle [0x04, 0x00] 2 with cfg := ⟨some 2, none⟩ }
    startable s = true ∧ s.start = some ⟨[0x04, 0x00], 2⟩ ∧ s.cfg.lenMax = some 1 ∧ (1 : Nat) < 2
      ∧ startable t = true ∧ t.start = some ⟨[0x04, 0x00], 2⟩ ∧ t.cfg.lenMax = some 2 := by decide

theorem test_hyps_IdleAndDoneWait :
    startable State.reset = true ∧ State.reset.start = none
      ∧ startable (onStream .done 0 []) = true ∧ (onStream .done 0 []).start = none := by decide

theorem test_hyps_MemReadReturnsTheBufferByte :
    memRead (attach [0xB4, 0x08] (fun _ => 0) 2) 2 1 = some 0x08
      ∧ memRead (attach [0xB4, 0x08] (fun _ => 0) 2) 2 2 = none
      ∧ memRead (attach [0xB4] (fun _ => 7) 2) 2 1 = some 7 := by decide

/-- V16 and V18: `p + n` inside and at the end of the buffer. -/
theorem test_hyps_FieldValueIsSliceOfTheBuffer :
    (3 + 32 ≤ 8 * [0xA5, 0x3C, 0xF0, 0x0F, (0x81 : Byte)].length
        ∧ bigNat [0xA5, 0x3C, 0xF0, 0x0F, 0x81] / 2 ^ 3 % 2 ^ 32 = 0x21FE0794)
      ∧ 35 + 5 ≤ 8 * [0xA5, 0x3C, 0xF0, 0x0F, (0x81 : Byte)].length
      ∧ bigNat [0xA5, 0x3C, 0xF0, 0x0F, 0x81] / 2 ^ 35 % 2 ^ 5 = 0x10 := by decide

theorem test_hyps_NextBitsReturnsTheFieldOrRaises :
    let s := onStream .runs 8 [0xA5, 0x3C, 0xF0, 0x0F, 0x81]
    32 ≤ s.rem ∧ CursorInv s ∧ BufferInv s ∧ (onStream .runs 9 [0xA5, 0x3C, 0xF0, 0x0F, 0x81]).rem < 32 :=
  ⟨by decide, rfl, bufferInv_of (by decide) (by decide), by decide⟩

theorem test_hyps_NextBitsBeyond32IsRefused : 32 < 33 := by decide

/-- `REM` at 0, 1, 7 and 8. -/
theorem test_hyps_TailZeroLooksAtTheLastByte :
    (CursorInv (onStream .runs 16 [0xB4, 0x00]) ∧ BufferInv (onStream .runs 16 [0xB4, 0x00]))
      ∧ (CursorInv (onStream .runs 15 [0xB4, 0x00]) ∧ BufferInv (onStream .runs 15 [0xB4, 0x00]))
      ∧ (CursorInv (onStream .runs 9 [0xB4, 0x00]) ∧ BufferInv (onStream .runs 9 [0xB4, 0x00]))
      ∧ CursorInv (onStream .runs 8 [0xB4, 0x00]) ∧ BufferInv (onStream .runs 8 [0xB4, 0x00]) :=
  ⟨⟨rfl, bufferInv_of (by decide) (by decide)⟩, ⟨rfl, bufferInv_of (by decide) (by decide)⟩,
    ⟨rfl, bufferInv_of (by decide) (by decide)⟩, rfl, bufferInv_of (by decide) (by decide)⟩

theorem test_hyps_RunElementsDecodeFromTheirEncoding :
    Instr.run1.wf = true ∧ (Instr.runlit 15).wf = true
      ∧ (Instr.runvar (List.replicate 9 0x80 ++ [0x81])).wf = true ∧ (Instr.runvar [0x00]).wf = true
      ∧ (Instr.runpad 1).wf = true ∧ (Instr.runpad 7).wf = true := by decide

theorem test_hyps_DecodedElementStandsOnItsEncoding :
    decodeRun [true, true] = .ok .run1
      ∧ decodeRun [false, false, false] = .ok (.runpad 1)
      ∧ decodeRun (List.replicate 10 false) = .ok (.runvar [0]) := by decide

/-- 82 bits that begin with the tag of each of the three elements. -/
theorem test_hyps_EveryTagSelectsOneElement :
    (Config.longestElement ≤ (true :: List.replicate 81 false).length
        ∧ natOfBits (true :: List.replicate 81 false) % 2 = 1)
      ∧ (Config.longestElement ≤ (false :: true :: List.replicate 80 false).length
        ∧ natOfBits (false :: true :: List.replicate 80 false) % 4 = 2)
      ∧ Config.longestElement ≤ (false :: false :: List.replicate 80 false).length
      ∧ natOfBits (false :: false :: List.replicate 80 false) % 4 = 0 := by
  refine ⟨⟨?_, ?_⟩, ⟨?_, ?_⟩, ?_, ?_⟩ <;>
    simp [Config.longestElement, Config.varMaxBytes, natOfBits]

theorem test_hyps_MinimalGroupsCarryTheirValue :
    (minimalGroups 127).length = 1 ∧ 1 < (minimalGroups 128).length
      ∧ (minimalGroups 0xFFFFFFFFFFFFFFFF).length = 10 := by decide

theorem test_hyps_AcceptedGroupsAreMinimal :
    groupsAccepted [0x00] = true ∧ groupsAccepted [0x80, 0x01] = true
      ∧ groupsAccepted (List.replicate 9 0xFF ++ [0x01]) = true := by decide

theorem test_hyps_StepRunsTheDecodedElement :
    let s := onStream .runs 9 [0xB4, 0x00]
    s.start = none ∧ s.phase = .runs ∧ 0 < s.rem
      ∧ window Config.longestElement s = some (List.replicate 7 false)
      ∧ decodeRun (List.replicate 7 false) = .ok (.runpad 5) := by decide

theorem test_hyps_StepRunsTheDecodedHeader :
    let s := onStream .header 0 [0xB4, 0x00]
    s.start = none ∧ s.phase = .header
      ∧ window 3 s = some [false, false, true] ∧ decodeHdr [false, false, true] = .ok (.hdr 0 1) := by decide

theorem test_hyps_StepOfACutElementRaises :
    let s := onStream .runs 6 [0x3C]
    s.start = none ∧ s.phase = .runs ∧ 0 < s.rem
      ∧ window Config.longestElement s = some [false, false]
      ∧ decodeRun [false, false] = .error (.group []) := by decide

theorem test_hyps_HdrEntersTheRunLoop : 3 ≤ (onStream .header 0 [0xB4]).rem := by decide

theorem test_hyps_HdrRejectsOtherVersions : (3 : BitVec 2) ≠ 0 ∧ 2 ≤ (onStream .header 0 [0x03]).rem := by
  decide

theorem test_hyps_HeaderStepLooksAtByteZero_accepts :
    let s := onStream .header 0 [0xB4, 0x00]
    s.start = none ∧ s.phase = .header ∧ s.pos = 0 ∧ CursorInv s ∧ BufferInv s
      ∧ memRead s.buf s.len 0 = some 0xB4 ∧ (0xB4 : Byte).toNat % 4 = 0 :=
  ⟨rfl, rfl, rfl, rfl, bufferInv_of (by decide) (by decide), rfl, rfl⟩

theorem test_hyps_HeaderStepLooksAtByteZero_rejects :
    let s := onStream .header 0 [0x03]
    s.start = none ∧ s.phase = .header ∧ s.pos = 0 ∧ CursorInv s ∧ BufferInv s
      ∧ memRead s.buf s.len 0 = some 0x03 ∧ (0x03 : Byte).toNat % 4 ≠ 0 :=
  ⟨rfl, rfl, rfl, rfl, bufferInv_of (by decide) (by decide), rfl, by decide⟩

theorem test_hyps_EmptyBufferRaisesUnexpectedEnd :
    (onStream .header 0 []).start = none ∧ (onStream .header 0 []).phase = .header
      ∧ (onStream .header 0 []).rem = 0 := by decide

theorem test_hyps_Run1AppendsOne : 1 ≤ (onStream .runs 7 [0xFC]).rem := by decide

theorem test_hyps_RunlitAppendsItsLiteral : 6 ≤ (onStream .runs 10 [0xB4, 0x00]).rem := by decide

theorem test_hyps_RunvarAppendsItsValue :
    (groupsAccepted [0x00] = true ∧ 2 + 8 * [(0x00 : Byte)].length ≤ (onStream .runs 6 [0x3C, 0x00]).rem)
      ∧ groupsAccepted (List.replicate 9 0xFF ++ [0x01]) = true
      ∧ 2 + 8 * (List.replicate 9 (0xFF : Byte) ++ [0x01]).length
          ≤ (onStream .runs 3 (List.replicate 11 0)).rem := by decide

theorem test_hyps_RunpadAppendsZeroAndEndsTheStream :
    (onStream .runs 5 [0x1C]).rem = 2 + 1 ∧ (onStream .runs 7 [0x7C, 0x00]).rem = 2 + 7 := by decide

theorem test_hyps_TenthGroupAboveOneRaisesRunTooLong :
    let gs : List Byte := List.replicate 9 0x80 ++ [0x02]
    groupsWf Config.varMaxBytes gs = true ∧ gs.length = 10 ∧ 1 < (gs.getLastD 0).toNat
      ∧ 82 ≤ (onStream .runs 3 (List.replicate 11 0)).rem := by decide

theorem test_hyps_NonCanonicalZeroRaisesInvalidRun :
    (groupsWf Config.varMaxBytes [0x81, 0x00] = true
        ∧ 2 + 8 * [0x81, (0x00 : Byte)].length ≤ (onStream .runs 3 [0x20, 0x10, 0x00]).rem)
      ∧ groupsWf Config.varMaxBytes (List.replicate 9 0xFF ++ [0x00]) = true
      ∧ (List.replicate 9 (0xFF : Byte) ++ [0x00]).getLastD 0 = 0 := by decide

/-- One element of each kind, longer than what remains by one bit. -/
theorem test_hyps_ShortStreamRaisesUnexpectedEnd :
    (onStream .runs 8 [0xFC]).rem < Instr.run1.bits
      ∧ (onStream .runs 3 [0x14]).rem < (Instr.runlit 0).bits
      ∧ (Instr.runvar [0x81, 0x01]).wf = true
      ∧ (onStream .runs 7 [0x20, 0x10, 0x00]).rem < (Instr.runvar [0x81, 0x01]).bits
      ∧ (onStream .header 6 [0x00]).rem < (Instr.hdr 0 0).bits
      ∧ (onStream .header 7 [0x00]).rem < 2 ∧ (onStream .header 7 [0x00]).rem < (Instr.hdr 3 0).bits
      ∧ (Instr.runpad 1).wf = true ∧ (onStream .runs 7 [0x00]).rem < 2
      ∧ (onStream .runs 7 [0x00]).rem < (Instr.runpad 1).bits := by decide

/-- A `RUN1` step: the state before it and the state after it. -/
def beforeRun1 : State := onStream .runs 3 [0xFC]

/-- The state after `beforeRun1`'s step. -/
def afterRun1 : State :=
  { beforeRun1 with pos := 4, rem := 4, b1 := 1, runlen := 1, runs := [1], port := 1 }

theorem beforeRun1_step : step beforeRun1 = .next afterRun1 := rfl

theorem test_hyps_EachRunStepAppendsOneRun :
    beforeRun1.phase = .runs ∧ 0 < beforeRun1.rem ∧ step beforeRun1 = .next afterRun1
      ∧ afterRun1.phase = .runs :=
  ⟨rfl, by decide, beforeRun1_step, rfl⟩

/-- The tails T0, T1, T2, T3, T9 and T20 of the tail table. -/
theorem test_hyps_ZeroTailDecodesByItsLength :
    let meets (pos : Nat) (data : List Byte) (q r : Nat) : Prop :=
      let s := onStream .runs pos data
      s.start = none ∧ s.phase = .runs ∧ r < 10 ∧ s.rem = 10 * q + r
        ∧ streamBits s.buf s.len s.pos s.rem = some (List.replicate s.rem false)
    meets 8 [0xFC] 0 0 ∧ meets 7 [0x7C] 0 1 ∧ meets 6 [0x3C] 0 2 ∧ meets 5 [0x1C] 0 3
      ∧ meets 7 [0x7C, 0x00] 0 9 ∧ meets 4 [0x0C, 0x00, 0x00] 2 0 := by decide

theorem test_hyps_ExpanderStartsAtTheEndOfTheStream :
    let s := onStream .runs 16 [0xB4, 0x00]
    s.start = none ∧ s.phase = .runs ∧ s.rem = 0 := by decide

/-- P1 after `EXPSTART`. -/
def expanding : State := { onStream .expand 16 [0xB4, 0x00] with first := 1, runs := [5, 0], state := 1 }

/-- P1 after its first `EXPSTEP`. -/
def expandedOne : State := { expanding with out := [0, 1, 2, 3, 4], acc := 5, state := 0, ridx := 1 }

/-- P1 after its last `EXPSTEP`. -/
def expandedAll : State := { expandedOne with state := 1, ridx := 2 }

theorem test_hyps_ExpansionStepEmitsOneRun :
    (expanding.start = none ∧ expanding.phase = .expand ∧ expanding.runs[expanding.ridx]? = some 5
        ∧ expanding.cfg.posBits = none ∧ expanding.state = 1)
      ∧ expandedOne.runs[expandedOne.ridx]? = some 0 ∧ expandedOne.state ≠ 1 := by decide

theorem test_hyps_ZeroRunOnlyFlipsState :
    expandedOne.start = none ∧ expandedOne.phase = .expand
      ∧ expandedOne.runs[expandedOne.ridx]? = some 0
      ∧ expandedOne.cfg.holdsPosition expandedOne.acc = true := by decide

theorem test_hyps_ExpanderEndsWithOk :
    expandedAll.start = none ∧ expandedAll.phase = .expand
      ∧ expandedAll.ridx = expandedAll.runs.length := by decide

/-- `POS_BITS` of 2 cannot count to 5, of 3 it can. -/
theorem test_hyps_PositionOverflowIsRefused :
    let s : State := { expanding with cfg := ⟨none, some 3⟩, acc := 3 }
    let t : State := { s with acc := 2 }
    (s.start = none ∧ s.phase = .expand ∧ s.runs[s.ridx]? = some 5 ∧ s.cfg.posBits = some 3
        ∧ 2 ^ 3 = s.acc + (5 : RunLen).toNat)
      ∧ (t.start = none ∧ t.phase = .expand ∧ t.runs[t.ridx]? = some 5 ∧ t.cfg.posBits = some 3
        ∧ t.acc + (5 : RunLen).toNat = 2 ^ 3 - 1) := by decide

theorem expanding_step : step expanding = .next expandedOne := rfl

theorem test_hyps_PhaseFollowsTheTable : step expanding = .next expandedOne := expanding_step

theorem test_hyps_StatusIsWrittenOnlyAtDone :
    let s : State := { expandedAll with status := .error .invalidRun }
    busy s = true ∧ step s = .next (expandEnd s) ∧ (expandEnd s).status ≠ s.status :=
  ⟨rfl, rfl, by decide⟩

theorem test_hyps_DecoderNeverWritesTheBuffer :
    step beforeRun1 = .next afterRun1 ∧ beforeRun1.start = none := ⟨beforeRun1_step, rfl⟩

theorem test_hyps_ErrorsAreRaisedBeforeExpansion_header :
    let s := onStream .header 0 []
    step s = .next (takeError .unexpectedEnd s) ∧ s.phase ≠ .done
      ∧ (takeError .unexpectedEnd s).phase = .done
      ∧ (takeError .unexpectedEnd s).status = .error .unexpectedEnd :=
  ⟨rfl, by decide, rfl, rfl⟩

theorem test_hyps_ErrorsAreRaisedBeforeExpansion_runs :
    let s := onStream .runs 6 [0x3C]
    let t : State := { s with pos := 8, rem := 0, b1 := 0, b2 := 0, vacc := 0, vidx := 0, port := 0 }
    step s = .next (takeError .unexpectedEnd t) ∧ s.phase ≠ .done
      ∧ (takeError .unexpectedEnd t).phase = .done
      ∧ (takeError .unexpectedEnd t).status = .error .unexpectedEnd :=
  ⟨rfl, by decide, rfl, rfl⟩

theorem test_hyps_NoStepReadsOutsideTheBuffer : CursorInv beforeRun1 ∧ BufferInv beforeRun1 :=
  ⟨rfl, bufferInv_of (by decide) (by decide)⟩

theorem test_hyps_BusyDecoderTakesAStep :
    busy beforeRun1 = true ∧ beforeRun1.start = none ∧ beforeRun1.cfg.posBits = none
      ∧ CursorInv beforeRun1 ∧ BufferInv beforeRun1 :=
  ⟨rfl, rfl, rfl, rfl, bufferInv_of (by decide) (by decide)⟩

theorem test_hyps_EveryStepKeepsTheCursorInvariant :
    CursorInv beforeRun1 ∧ step beforeRun1 = .next afterRun1 := ⟨rfl, beforeRun1_step⟩

theorem test_hyps_EveryStepKeepsTheBufferWhole :
    BufferInv beforeRun1 ∧ step beforeRun1 = .next afterRun1 :=
  ⟨bufferInv_of (by decide) (by decide), beforeRun1_step⟩

/-- The first run, where the bound is met exactly. -/
theorem test_hyps_EveryStepKeepsTheBoundOnRuns :
    RunsInv beforeRun1 ∧ CursorInv beforeRun1 ∧ step beforeRun1 = .next afterRun1
      ∧ afterRun1.phase = .runs :=
  ⟨(by decide : beforeRun1.runs.length + 3 ≤ beforeRun1.pos), rfl, beforeRun1_step, rfl⟩

theorem test_hyps_EveryStepKeepsOutIncreasing :
    OutInv expandedOne ∧ step expandedOne = .next expandedAll :=
  ⟨(by decide : expandedOne.out.Pairwise (· < ·) ∧ ∀ x ∈ expandedOne.out, x < expandedOne.acc), rfl⟩

theorem expandInv_expandedOne : ExpandInv expandedOne :=
  (by decide : expandedOne.ridx ≤ expandedOne.runs.length
    ∧ expandedOne.acc = (expandedRuns expandedOne).sum
    ∧ (expandedOne.state = 1 ↔ (expandedOne.first.toNat + expandedOne.ridx) % 2 = 1)
    ∧ expandedOne.out = refExpand 0 (decide (expandedOne.first = 1)) (expandedRuns expandedOne))

theorem test_hyps_EveryStepKeepsTheExpandersProgress :
    ExpandInv expandedOne ∧ step expandedOne = .next expandedAll := ⟨expandInv_expandedOne, rfl⟩

theorem test_hyps_ResultLengthIsTheSumOfSetRuns :
    ExpandInv expandedAll ∧ expandedAll.phase = .expand
      ∧ step expandedAll = .next (expandEnd expandedAll) ∧ (expandEnd expandedAll).phase = .done :=
  ⟨(by decide : expandedAll.ridx ≤ expandedAll.runs.length
      ∧ expandedAll.acc = (expandedRuns expandedAll).sum
      ∧ (expandedAll.state = 1 ↔ (expandedAll.first.toNat + expandedAll.ridx) % 2 = 1)
      ∧ expandedAll.out = refExpand 0 (decide (expandedAll.first = 1)) (expandedRuns expandedAll)), rfl, rfl, rfl⟩

/-- V72's and V60's elements, each with a stream of whole bytes. -/
theorem test_hyps_AssembledElementsDecodeToTheirRuns :
    (Instr.run1.accepted = true ∧ (runLength .run1).isSome = true
        ∧ assemble ((Instr.hdr 0 1 :: List.replicate 5 .run1).map AsmLine.element) = some [0xFC])
      ∧ (Instr.runvar [0x0F]).accepted = true ∧ (runLength (.runvar [0x0F])).isSome = true
      ∧ assemble ([.hdr 0 0, .runvar [0x0F], .run1, .run1, .run1].map AsmLine.element)
          = some [0xE0, 0xE1] := by decide

/-- V41, whose total is 1: an unbounded position counter, one of 1 bit that holds it, and one of 0 bits that
does not. The last byte of the host's data lies past `LEN`. Then V5b, which ends in an error. -/
theorem test_hyps_MachineComputesTheDecodeFunction :
    let s := withStart .idle [0x34, 0x00, 0xFF] 2
    let t : State := { s with cfg := ⟨some 2, some 1⟩ }
    let u := withStart .done [0x3C] 1
    (startable s = true ∧ s.start = some ⟨[0x34, 0x00, 0xFF], 2⟩ ∧ s.cfg.admitsLen 2 = true
        ∧ s.cfg.holdsPosition (refTotal [0x34, 0x00]) = true)
      ∧ t.cfg.admitsLen 2 = true ∧ t.cfg.holdsPosition (refTotal [0x34, 0x00]) = true
      ∧ refDecode [0x34, 0x00] = .ok [0]
      ∧ (startable u = true ∧ u.start = some ⟨[0x3C], 1⟩ ∧ u.cfg.admitsLen 1 = true
        ∧ u.cfg.holdsPosition (refTotal [0x3C]) = true ∧ refDecode [0x3C] = .err .unexpectedEnd) := by decide

theorem test_hyps_DecodeBeyondPosBitsIsRefused :
    let s : State := { withStart .idle [0x34, 0x00, 0xFF] 2 with cfg := ⟨none, some 0⟩ }
    startable s = true ∧ s.start = some ⟨[0x34, 0x00, 0xFF], 2⟩ ∧ s.cfg.admitsLen 2 = true
      ∧ s.cfg.holdsPosition (refTotal [0x34, 0x00]) = false := by decide

/-- `LEN` larger than the data. -/
theorem test_hyps_EveryDecodeEnds :
    let s := withStart .done [0x34] 2
    startable s = true ∧ s.start = some ⟨[0x34], 2⟩ ∧ s.cfg.admitsLen 2 = true
      ∧ s.cfg.posBits = none := by decide

theorem test_hyps_NothingOfAnEarlierDecodeShows :
    let s := withStart .idle [0x34, 0x00] 2
    let t : State := { withStart .done [0x34, 0x00] 2 with out := [9], status := .error .invalidRun, draws := 4 }
    startable s = true ∧ startable t = true ∧ s.start = some ⟨[0x34, 0x00], 2⟩
      ∧ t.start = some ⟨[0x34, 0x00], 2⟩ ∧ s.cfg = t.cfg := by decide

end Sys2Proof.Tests
end

section
/-! The fields of the attached buffer are the slices of its integer (spec/00_scope.md R7). -/

namespace Sys2Proof.Laws

open Sys2Proof.Machine Sys2Proof.Safety

/-- Bit `p` of the buffer's integer is bit `p mod 8` of byte `p div 8` (R6, R7). -/
theorem testBit_bigNat (data : List Byte) (p : Nat) :
    (bigNat data).testBit p = (data[p / 8]?.getD 0).getLsbD (p % 8) := by
  induction data generalizing p with
  | nil => simp [bigNat]
  | cons b bs ih =>
    have low : b.toNat < 2 ^ 8 := b.isLt
    have split := Nat.testBit_two_pow_mul_add (bigNat bs) low p
    rw [bigNat, add_comm, show (256 : Nat) = 2 ^ 8 from rfl, split]
    split_ifs with hp
    · rw [Nat.div_eq_of_lt hp, Nat.mod_eq_of_lt hp]
      rfl
    · obtain ⟨q, rfl⟩ := Nat.exists_eq_add_of_le' (Nat.le_of_not_lt hp)
      simp [ih]

/-- The stream bits of a buffer attached whole are the bits of its integer (R6, R7). -/
theorem streamBit_attach (data : List Byte) (beyond : Nat → Byte) {p : Nat} (hp : p < 8 * data.length) :
    streamBit (attach data beyond data.length) data.length p = some ((bigNat data).testBit p) := by
  have inside : p / 8 < data.length := by omega
  simp [streamBit, memRead, memLookup_attach, testBit_bigNat, inside]

/-- `n` stream bits from `p` on are the `n` low bits of the buffer's integer shifted by `p` (R7). -/
theorem streamBits_attach (data : List Byte) (beyond : Nat → Byte) {p n : Nat}
    (h : p + n ≤ 8 * data.length) :
    streamBits (attach data beyond data.length) data.length p n
      = some (bitsOfNat n (bigNat data / 2 ^ p)) := by
  induction n generalizing p with
  | zero => rfl
  | succ n ih =>
    have next : bigNat data / 2 ^ (p + 1) = bigNat data / 2 ^ p / 2 := by
      rw [pow_succ, Nat.div_div_eq_div_mul]
    simp only [streamBits, streamBit_attach data beyond (show p < 8 * data.length by omega),
      ih (show p + 1 + n ≤ 8 * data.length by omega), bitsOfNat, next,
      Nat.testBit_eq_decide_div_mod_eq]
    rfl

/-- Settles O9: the bits read are those of the shifted integer, and their value is its low part. -/
theorem fieldValueIsSliceOfTheBuffer : Obligations.FieldValueIsSliceOfTheBuffer := by
  intro data beyond p n h
  have read := streamBits_attach data beyond h
  exact ⟨_, read, natOfBits_bitsOfNat n _, streamBits_value read⟩

end Sys2Proof.Laws
end

section
/-! Two decodes of one buffer agree step by step (spec/00_scope.md R12, spec/70_reset_and_hazards.md R201):
the relation between their states, that every element and every step keeps it, and that START
establishes it. -/

namespace Sys2Proof.Laws

open Sys2Proof.Machine Sys2Proof.Safety

/-! ### States of the same decode -/

/-- The two states stand at the same place of the same decode: they agree on every register that a rule
has written since the START, in the phases that still read it. A register which the phase writes before
it reads (R40) may differ. -/
structure SameDecode (s t : State) : Prop where
  cfg : s.cfg = t.cfg
  buf : s.buf = t.buf
  len : s.len = t.len
  pos : s.pos = t.pos
  rem : s.rem = t.rem
  runs : s.runs = t.runs
  out : s.out = t.out
  phase : s.phase = t.phase
  first : s.phase = .runs ∨ s.phase = .expand → s.first = t.first
  expander : s.phase = .expand → s.ridx = t.ridx ∧ s.acc = t.acc ∧ s.state = t.state
  status : s.phase = .done → s.status = t.status
  start_left : s.start = none
  start_right : t.start = none

/-- The host reads only what the two decodes agree on (R37). -/
theorem SameDecode.hostView {s t : State} (h : SameDecode s t) : hostView s = hostView t := by
  have phase := h.phase.symm
  cases hp : s.phase <;> rw [hp] at phase <;> simp only [Machine.hostView, hp, phase]
  case done => rw [h.status hp, h.out]

theorem SameDecode.advance {s t : State} (h : SameDecode s t) (w : Nat) (v : BitVec w) :
    SameDecode (s.advance w v) (t.advance w v) :=
  { h with
    pos := congrArg (· + w) h.pos
    rem := congrArg (· - w) h.rem }

theorem SameDecode.withRun {s t : State} (h : SameDecode s t) (r : RunLen) :
    SameDecode (s.withRun r) (t.withRun r) :=
  { h with runs := congrArg (· ++ [r]) h.runs }

theorem SameDecode.takeError {s t : State} (h : SameDecode s t) (e : DecodeError) :
    SameDecode (takeError e s) (takeError e t) :=
  { h with
    runs := rfl
    phase := rfl
    first := by simp
    expander := by simp
    status := fun _ => rfl }

/-! ### Attempts of the same decode -/

/-- Both attempts are done, and their states moreover satisfy `P`; or both raise the same error. -/
inductive SameAttempt (P : State → State → Prop) : Attempt → Attempt → Prop
  | done {s t : State} (same : SameDecode s t) (also : P s t) : SameAttempt P (.done s) (.done t)
  | raised {s t : State} (e : DecodeError) (same : SameDecode s t) :
      SameAttempt P (.raised e s) (.raised e t)

theorem SameAttempt.andThen {P Q : State → State → Prop} {a b : Attempt} {next : State → Attempt}
    (h : SameAttempt P a b)
    (k : ∀ s t, SameDecode s t → P s t → SameAttempt Q (next s) (next t)) :
    SameAttempt Q (a.andThen next) (b.andThen next) := by
  cases h with
  | done same also => exact k _ _ same also
  | raised e same => exact .raised e same

/-- The two outcomes are the same fault, the same refusal, or states of the same decode. -/
inductive SameOutcome :
    Host.Outcome State Fault Refusal → Host.Outcome State Fault Refusal → Prop
  | next {s t : State} (same : SameDecode s t) : SameOutcome (.next s) (.next t)
  | fault (f : Fault) : SameOutcome (.fault f) (.fault f)
  | refused (r : Refusal) : SameOutcome (.refused r) (.refused r)

theorem SameAttempt.finish {P : State → State → Prop} {a b : Attempt} (h : SameAttempt P a b) :
    SameOutcome (finish a) (finish b) := by
  cases h with
  | done same _ => exact .next same
  | raised e same => exact .next (same.takeError e)

theorem SameOutcome.seen_eq {o p : Host.Outcome State Fault Refusal} (h : SameOutcome o p) :
    seen o = seen p := by
  cases h with
  | next same => exact congrArg some same.hostView
  | fault f => rfl
  | refused r => rfl

/-! ### The reads of an element -/

theorem consume_same {w : Nat} (v : BitVec w) {s t : State} (h : SameDecode s t) :
    SameAttempt (fun s' t' => s' = s.advance w v ∧ t' = t.advance w v)
      (consume w v s) (consume w v t) := by
  by_cases hw : w ≤ s.rem
  · rw [consume_of_le v hw, consume_of_le v (h.rem ▸ hw)]
    exact .done (h.advance w v) ⟨rfl, rfl⟩
  · have hs : s.rem < w := Nat.lt_of_not_le hw
    rw [consume_of_lt v hs, consume_of_lt v (h.rem ▸ hs)]
    exact .raised _ h

theorem readVersion_same (v : BitVec 2) {s t : State} (h : SameDecode s t) :
    SameAttempt (fun s t => s.version = t.version) (readVersion v s) (readVersion v t) :=
  (consume_same v h).andThen fun _ _ same _ => .done { same with } rfl

theorem checkVersion_same {s t : State} (h : SameDecode s t) (hv : s.version = t.version) :
    SameAttempt (fun _ _ => True) (checkVersion s) (checkVersion t) := by
  unfold checkVersion
  rw [← hv]
  split_ifs
  · exact .done h trivial
  · exact .raised _ h

theorem readFirst_same (f : Bit) {s t : State} (h : SameDecode s t) :
    SameAttempt (fun s t => s.first = t.first) (readFirst f s) (readFirst f t) :=
  (consume_same f h).andThen fun _ _ same _ => .done { same with first := fun _ => rfl } rfl

theorem readB1_same (b : Bit) {s t : State} (h : SameDecode s t) :
    SameAttempt (fun _ _ => True) (readB1 b s) (readB1 b t) :=
  (consume_same b h).andThen fun _ _ same _ => .done { same with } trivial

theorem readB2_same (b : Bit) {s t : State} (h : SameDecode s t) :
    SameAttempt (fun _ _ => True) (readB2 b s) (readB2 b t) :=
  (consume_same b h).andThen fun _ _ same _ => .done { same with } trivial

theorem readTag_same (b : Bit) {s t : State} (h : SameDecode s t) :
    SameAttempt (fun _ _ => True) (readTag b s) (readTag b t) :=
  (readB1_same 0 h).andThen fun _ _ same _ => readB2_same b same

/-- `VARINT()` gathers the same value where both start from the same `VIDX` and `VACC` (R130). -/
theorem varint_same (gs : List Byte) {s t : State} (h : SameDecode s t)
    (hidx : s.vidx = t.vidx) (hacc : s.vacc = t.vacc) :
    SameAttempt (fun s t => s.vacc = t.vacc) (varint gs s) (varint gs t) := by
  induction gs generalizing s t with
  | nil => exact .raised _ h
  | cons g gs ih =>
    refine (consume_same g h).andThen fun u v same moved => ?_
    obtain ⟨rfl, rfl⟩ := moved
    have keptIdx : (t.advance 8 g).vidx = (s.advance 8 g).vidx := hidx.symm
    have keptAcc : (t.advance 8 g).vacc = (s.advance 8 g).vacc := hacc.symm
    rw [keptIdx, keptAcc]
    dsimp only
    split_ifs
    · exact .raised _ { same with }
    · refine ih ?_ rfl rfl
      exact { same with }
    · exact .raised _ { same with }
    · exact .done { same with } rfl

/-! ### The elements -/

theorem execHdr_same (v : BitVec 2) (f : Bit) {s t : State} (h : SameDecode s t) :
    SameOutcome (execHdr v f s) (execHdr v f t) := by
  refine SameAttempt.finish (P := fun _ _ => True) ?_
  refine (readVersion_same v h).andThen fun _ _ same version => ?_
  refine (checkVersion_same same version).andThen fun _ _ same _ => ?_
  refine (readFirst_same f same).andThen fun _ _ same first => .done ?_ trivial
  exact { same with
    phase := rfl
    first := fun _ => first
    expander := by simp
    status := by simp }

theorem execRun1_same {s t : State} (h : SameDecode s t) : SameOutcome (execRun1 s) (execRun1 t) := by
  refine SameAttempt.finish (P := fun _ _ => True) ?_
  exact (readB1_same 1 h).andThen fun _ _ same _ => .done (same.withRun 1) trivial

theorem execRunlit_same (lit : BitVec 4) {s t : State} (h : SameDecode s t) :
    SameOutcome (execRunlit lit s) (execRunlit lit t) := by
  refine SameAttempt.finish (P := fun _ _ => True) ?_
  refine (readTag_same 1 h).andThen fun _ _ same _ => ?_
  exact (consume_same lit same).andThen fun _ _ same _ => .done (same.withRun _) trivial

theorem execRunvar_same (groups : List Byte) {s t : State} (h : SameDecode s t) :
    SameOutcome (execRunvar groups s) (execRunvar groups t) := by
  refine SameAttempt.finish (P := fun _ _ => True) ?_
  refine (readTag_same 0 h).andThen fun _ _ same _ => ?_
  refine SameAttempt.andThen (varint_same groups ?_ rfl rfl) fun _ _ same value => ?_
  · exact { same with }
  · rw [value]
    exact .done (same.withRun _) trivial

theorem execRunpad_same (pad : Nat) {s t : State} (h : SameDecode s t) :
    SameOutcome (execRunpad pad s) (execRunpad pad t) := by
  refine SameAttempt.finish (P := fun _ _ => True) ?_
  refine (readTag_same 0 h).andThen fun _ _ same _ => .done (SameDecode.withRun ?_ 0) trivial
  exact { same with
    pos := congrArg₂ (· + ·) same.pos same.rem
    rem := rfl }

theorem execNextbits_same (n : Nat) {s t : State} (h : SameDecode s t) :
    SameOutcome (execNextbits n s) (execNextbits n t) := by
  simp only [execNextbits, ← h.buf, ← h.len, ← h.pos, ← h.rem]
  split_ifs
  · exact .refused _
  · exact .next (h.takeError _)
  · cases streamBits s.buf s.len s.pos n with
    | none => exact .fault _
    | some bits => exact .next (h.advance n _)

/-- An instruction does the same in two states of the same decode: it reads no register which may differ
before it writes it (R40). -/
theorem exec_same (i : Instr) {s t : State} (h : SameDecode s t) :
    SameOutcome (exec i s) (exec i t) := by
  cases i with
  | hdr v f => exact execHdr_same v f h
  | run1 => exact execRun1_same h
  | runlit lit => exact execRunlit_same lit h
  | runvar groups => exact execRunvar_same groups h
  | runpad pad => exact execRunpad_same pad h
  | nextbits n => exact execNextbits_same n h

/-! ### The steps -/

theorem window_same (most : Nat) {s t : State} (h : SameDecode s t) : window most s = window most t := by
  simp only [window, h.buf, h.len, h.pos, h.rem]

theorem runElement_same (fetched : Option Instr) {s t : State} (h : SameDecode s t) :
    SameOutcome (runElement fetched s) (runElement fetched t) := by
  cases fetched with
  | none => exact .fault _
  | some i => exact exec_same i h

theorem expandStart_same {s t : State} (h : SameDecode s t) (hp : s.phase = .runs) :
    SameDecode (expandStart s) (expandStart t) :=
  { h with
    phase := rfl
    first := fun _ => h.first (.inl hp)
    expander := fun _ => ⟨rfl, rfl, h.first (.inl hp)⟩
    status := by simp }

theorem expandEnd_same {s t : State} (h : SameDecode s t) : SameDecode (expandEnd s) (expandEnd t) :=
  { h with
    phase := rfl
    first := by simp
    expander := by simp
    status := fun _ => rfl }

theorem expandRun_same (r : RunLen) {s t : State} (h : SameDecode s t) (hp : s.phase = .expand) :
    SameDecode (expandRun r s) (expandRun r t) := by
  obtain ⟨hidx, hacc, hstate⟩ := h.expander hp
  exact { h with
    out := by simp [h.out, hacc, hstate]
    expander := fun _ => by simp [hidx, hacc, hstate] }

theorem expandNext_same {s t : State} (h : SameDecode s t) (hp : s.phase = .expand) :
    SameOutcome (expandNext s) (expandNext t) := by
  obtain ⟨hidx, hacc, _⟩ := h.expander hp
  simp only [expandNext, ← h.runs, ← hidx, ← hacc, ← h.cfg]
  cases s.runs[s.ridx]? with
  | none => exact .next (expandEnd_same h)
  | some r =>
    simp only
    split_ifs
    · exact .next (expandRun_same r h hp)
    · exact .refused _

/-- A step keeps two states in the same decode, or stops both alike (R36). -/
theorem step_same {s t : State} (h : SameDecode s t) : SameOutcome (step s) (step t) := by
  simp only [step, machineStep, h.start_left, h.start_right, decoderStep, ← h.phase]
  cases hp : s.phase with
  | idle => exact .next h
  | header =>
    simp only [fetchHdr, window_same 3 h]
    exact runElement_same _ h
  | runs =>
    simp only [bitsRemain, fetchRun, ← h.rem, window_same Config.longestElement h]
    split_ifs
    · exact runElement_same _ h
    · exact .next (expandStart_same h hp)
  | expand => exact expandNext_same h hp
  | done => exact .next h

theorem steps_succ_of_fault {k : Nat} {s : State} {f : Fault} (h : step s = .fault f) :
    steps (k + 1) s = .fault f := by
  have core : Sys2Proof.core.step s = .fault f := h
  simp only [steps, Host.Core.run, core]
  rfl

theorem steps_succ_of_refused {k : Nat} {s : State} {r : Refusal} (h : step s = .refused r) :
    steps (k + 1) s = .refused r := by
  have core : Sys2Proof.core.step s = .refused r := h
  simp only [steps, Host.Core.run, core]
  rfl

/-- Two runs whose first steps agree agree, if runs from the states after those steps do. -/
theorem steps_succ_same {k : Nat} {s t : State}
    (later : ∀ u v, SameDecode u v → SameOutcome (steps k u) (steps k v))
    (h : SameOutcome (step s) (step t)) : SameOutcome (steps (k + 1) s) (steps (k + 1) t) := by
  generalize hs : step s = o, ht : step t = p at h
  cases h with
  | next same => rw [steps_succ hs, steps_succ ht]; exact later _ _ same
  | fault f => rw [steps_succ_of_fault hs, steps_succ_of_fault ht]; exact .fault f
  | refused r => rw [steps_succ_of_refused hs, steps_succ_of_refused ht]; exact .refused r

theorem steps_same (k : Nat) (s t : State) (h : SameDecode s t) :
    SameOutcome (steps k s) (steps k t) := by
  induction k generalizing s t with
  | zero => exact .next h
  | succ k ih => exact steps_succ_same ih (step_same h)

/-! ### START -/

/-- Where the host hands over the whole buffer, no byte past its data is attached (R202 (b)). -/
theorem attach_beyond_irrelevant {data : List Byte} {len : Nat} (h : len ≤ data.length)
    (beyond beyond' : Nat → Byte) : attach data beyond len = attach data beyond' len := by
  refine List.map_congr_left fun a ha => ?_
  have inside : a < data.length := by have := List.mem_range.mp ha; omega
  simp [inside]

/-- After a START with its whole buffer nothing of the state before it is left that a decode reads (R201). -/
theorem startDecode_same {s t : State} {c : StartCommand} (cfg : s.cfg = t.cfg)
    (whole : c.len ≤ c.data.length) : SameDecode (startDecode c s) (startDecode c t) where
  cfg := cfg
  buf := attach_beyond_irrelevant whole _ _
  len := rfl
  pos := rfl
  rem := rfl
  runs := rfl
  out := rfl
  phase := rfl
  first := by simp [startDecode]
  expander := by simp [startDecode]
  status := by simp [startDecode]
  start_left := rfl
  start_right := rfl

/-- Where the decoder is not busy, a step with a START at the port is its acceptance (R203). -/
theorem step_of_start {s : State} {c : StartCommand} (hs : startable s = true) (hc : s.start = some c) :
    step s = acceptStart c s := by
  simp only [step, machineStep, hc, startStep]
  cases hp : s.phase <;> simp [startable, busy, hp] at hs ⊢

/-- Settles O60: START puts both machines into the same decode, or is refused by both, and every step
after it keeps them there, where the host sees the same. -/
theorem nothingOfAnEarlierDecodeShows : Obligations.NothingOfAnEarlierDecodeShows := by
  intro s₁ s₂ c k hs₁ hs₂ hc₁ hc₂ cfg whole
  have first : SameOutcome (step s₁) (step s₂) := by
    rw [step_of_start hs₁ hc₁, step_of_start hs₂ hc₂]
    simp only [acceptStart, ← cfg]
    split_ifs
    · exact .next (startDecode_same cfg whole)
    · exact .refused _
  exact (steps_succ_same (steps_same k) first).seen_eq

end Sys2Proof.Laws
end

section
/-! The phases and the table of the state machine (spec/10_state.md R22, R34 to R36, R41): which phases
accept a START, which row a phase takes, and what every step keeps of the cursor, `PHASE` and `STATUS`. -/

namespace Sys2Proof.Laws

open Sys2Proof.Machine Sys2Proof.Safety

/-! ### The phases -/

theorem startable_iff {s : State} : startable s = true ↔ s.phase = .idle ∨ s.phase = .done := by
  cases hp : s.phase <;> simp [startable, busy, hp]

theorem not_startable_of_busy {s : State} (h : busy s = true) : ¬ startable s = true := by
  simp [startable, h]

/-- Settles O1: `State.reset` gives these registers the values of R41. -/
theorem resetIsIdleAndEmpty : Obligations.ResetIsIdleAndEmpty :=
  ⟨rfl, rfl, rfl, rfl⟩

/-! ### The row that a phase takes -/

/-- Row 2 of R36: in `HEADER` the step runs what is fetched there. -/
theorem step_of_header {s : State} (hc : s.start = none) (hp : s.phase = .header) :
    step s = runElement (fetchHdr s) s := by
  simp only [step, machineStep, hc, decoderStep, hp]

/-- Row 4 of R36: in the run loop, while bits remain, the step runs what is fetched there. -/
theorem step_of_runs {s : State} (hc : s.start = none) (hp : s.phase = .runs) (hr : 0 < s.rem) :
    step s = runElement (fetchRun s) s := by
  have remain : bitsRemain s = true := decide_eq_true hr
  simp only [step, machineStep, hc, decoderStep, hp, remain, if_true]

theorem fetchHdr_of_window {s : State} {bits : List Bool} (h : window 3 s = some bits) :
    fetchHdr s = some (elementOf (decodeHdr bits)) := by
  simp only [fetchHdr, h, Option.map_some]

theorem fetchRun_of_window {s : State} {bits : List Bool} (h : window Config.longestElement s = some bits) :
    fetchRun s = some (elementOf (decodeRun bits)) := by
  simp only [fetchRun, h, Option.map_some]

/-- Settles O22: the row of the run loop, on the element that the window holds whole. -/
theorem stepRunsTheDecodedElement : Obligations.StepRunsTheDecodedElement := by
  intro s bits i hc hp hr hw hi
  rw [step_of_runs hc hp hr, fetchRun_of_window hw, hi]
  rfl

/-- Settles O23: the row of `HEADER`, on the header that the window holds whole. -/
theorem stepRunsTheDecodedHeader : Obligations.StepRunsTheDecodedHeader := by
  intro s bits i hc hp hw hi
  rw [step_of_header hc hp, fetchHdr_of_window hw, hi]
  rfl

/-! ### The cursor -/

/-- What keeps `LEN` and the sum of `POS` and `REM` keeps the cursor's invariant (R22). -/
theorem cursorInv_of_eq {s t : State} (hs : CursorInv s) (len : t.len = s.len)
    (sum : t.pos + t.rem = s.pos + s.rem) : CursorInv t := by
  unfold CursorInv at *
  rw [sum, len, hs]

/-- START puts the cursor at the first bit of its buffer, with all of it to read (R201). -/
theorem cursorInv_startDecode (c : StartCommand) (s : State) : CursorInv (startDecode c s) := by
  simp [CursorInv]

/-- Settles O50: START begins a fresh cursor, an element's reads move bits from `REM` to `POS`, and no
other step writes `POS`, `REM` or `LEN`. -/
theorem everyStepKeepsTheCursorInvariant : Obligations.EveryStepKeepsTheCursorInvariant := by
  intro s t inv h
  cases step_cases h with
  | start c => exact cursorInv_startDecode c s
  | wait => exact inv
  | raised _ _ e u frame => exact cursorInv_of_eq inv frame.len frame.sum
  | header _ _ f h3 => exact cursorInv_of_eq inv rfl (by simp only; omega)
  | run _ _ _ u r read => exact cursorInv_of_eq inv read.frame.len read.frame.sum
  | expandStart => exact cursorInv_of_eq inv rfl rfl
  | expandRun => exact cursorInv_of_eq inv rfl rfl
  | expandEnd => exact cursorInv_of_eq inv rfl rfl

/-! ### `PHASE` and `STATUS` -/

/-- Settles O44: each case of a step is a row of the table, or a wait in `IDLE` or `DONE`. -/
theorem phaseFollowsTheTable : Obligations.PhaseFollowsTheTable := by
  intro s t h
  cases step_cases h with
  | start c _ hs => rcases startable_iff.mp hs with hp | hp <;> simp [hp, phaseMayFollow]
  | wait _ hs => rcases startable_iff.mp hs with hp | hp <;> simp [hp, phaseMayFollow]
  | raised _ hp => rcases hp with hp | hp <;> simp [hp, phaseMayFollow]
  | header _ hp => simp [hp, phaseMayFollow]
  | run _ hp _ u r read => simp [read.frame.phase, hp, phaseMayFollow]
  | expandStart _ hp => simp [hp, phaseMayFollow]
  | expandRun _ hp => simp [hp, phaseMayFollow]
  | expandEnd _ hp => simp [hp, phaseMayFollow]

/-- Settles O45: of a busy decoder's steps only an error and the expander's end write `STATUS`, and both
enter `DONE`. -/
theorem statusIsWrittenOnlyAtDone : Obligations.StatusIsWrittenOnlyAtDone := by
  intro s t hb h written
  cases step_cases h with
  | start _ _ hs => exact absurd hs (not_startable_of_busy hb)
  | wait _ hs => exact absurd hs (not_startable_of_busy hb)
  | raised => rfl
  | header => exact absurd rfl written
  | run _ _ _ u r read => exact absurd read.frame.status written
  | expandStart => exact absurd rfl written
  | expandRun => exact absurd rfl written
  | expandEnd => rfl

end Sys2Proof.Laws
end

section
/-! What the host reads of a state (spec/10_state.md R37, spec/70_reset_and_hazards.md R204): which states
give each of its views. -/

namespace Sys2Proof.Laws

open Sys2Proof.Machine Sys2Proof.Safety

theorem hostView_eq_idle_iff {s : State} : hostView s = .idle ↔ s.phase = .idle := by
  cases hp : s.phase <;> simp [hostView, hp]

theorem hostView_eq_busy_iff {s : State} : hostView s = .busy ↔ busy s = true := by
  cases hp : s.phase <;> simp [hostView, busy, hp]

theorem hostView_eq_done_iff {s : State} {r : Result} :
    hostView s = .done r ↔ s.phase = .done ∧ resultOf s.status s.out = r := by
  cases hp : s.phase <;> simp [hostView, hp]

/-- Two outcomes are the same where `STATUS` is, and `OUT` too if the decode succeeded (R204). -/
theorem resultOf_eq_iff {a b : Status} {x y : List Nat} :
    resultOf a x = resultOf b y ↔ a = b ∧ (a = .ok → x = y) := by
  cases a <;> cases b <;> simp [resultOf]

/-- Settles O7: two states give the same view exactly where both meet the condition of that view. -/
theorem hostSeesOnlyTheOutcome : Obligations.HostSeesOnlyTheOutcome := by
  intro s t
  constructor
  · rintro (⟨hs, ht⟩ | ⟨hs, ht⟩ | ⟨hs, ht, same⟩)
    · rw [hostView_eq_busy_iff.mpr hs, hostView_eq_busy_iff.mpr ht]
    · rw [hostView_eq_idle_iff.mpr hs, hostView_eq_idle_iff.mpr ht]
    · rw [hostView_eq_done_iff.mpr ⟨ht, rfl⟩]
      exact hostView_eq_done_iff.mpr ⟨hs, resultOf_eq_iff.mpr same⟩
  · intro h
    cases hv : hostView t with
    | idle => exact .inr (.inl ⟨hostView_eq_idle_iff.mp (h.trans hv), hostView_eq_idle_iff.mp hv⟩)
    | busy => exact .inl ⟨hostView_eq_busy_iff.mp (h.trans hv), hostView_eq_busy_iff.mp hv⟩
    | done r =>
      obtain ⟨hs, viewS⟩ := hostView_eq_done_iff.mp (h.trans hv)
      obtain ⟨ht, viewT⟩ := hostView_eq_done_iff.mp hv
      exact .inr (.inr ⟨hs, ht, resultOf_eq_iff.mp (viewS.trans viewT.symm)⟩)

end Sys2Proof.Laws
end

section
/-! The buffer (spec/20_memory.md R52, R53, R59): what `MemRead` returns of an attached one, that START alone
writes it and attaches a whole one, and that no step reads outside it. -/

namespace Sys2Proof.Laws

open Sys2Proof.Machine Sys2Proof.Safety

/-! ### Reading an attached buffer -/

/-- `MemRead` of an attached buffer is its listed byte: the bound of R52 is the bound of the list. -/
theorem memRead_attach (data : List Byte) (beyond : Nat → Byte) (len a : Nat) :
    memRead (attach data beyond len) len a = if a < len then some (data[a]?.getD (beyond a)) else none := by
  simp only [memRead, memLookup_attach]
  split_ifs <;> rfl

/-- Settles O8: the two sides of the bound. -/
theorem memReadReturnsTheBufferByte : Obligations.MemReadReturnsTheBufferByte := by
  intro data beyond len a
  rw [memRead_attach]
  exact ⟨fun below => if_pos below, fun above => if_neg (Nat.not_lt.mpr above)⟩

/-! ### Who writes the buffer -/

/-- START is the one step that attaches a buffer; every other step leaves `BUF` and `LEN`, and the
parameters, as they are (R53, R201). -/
theorem step_attaches_or_keeps {s t : State} (h : step s = .next t) :
    (∃ c, s.start = some c ∧ t = startDecode c s)
      ∨ (t.cfg = s.cfg ∧ t.buf = s.buf ∧ t.len = s.len) := by
  cases step_cases h with
  | start c hc => exact .inl ⟨c, hc, rfl⟩
  | wait => exact .inr ⟨rfl, rfl, rfl⟩
  | raised _ _ e u frame => exact .inr ⟨frame.cfg, frame.buf, frame.len⟩
  | header => exact .inr ⟨rfl, rfl, rfl⟩
  | run _ _ _ u r read => exact .inr ⟨read.frame.cfg, read.frame.buf, read.frame.len⟩
  | expandStart => exact .inr ⟨rfl, rfl, rfl⟩
  | expandRun => exact .inr ⟨rfl, rfl, rfl⟩
  | expandEnd => exact .inr ⟨rfl, rfl, rfl⟩

/-- Settles O46: a step that attaches a buffer has a START at the port, and START keeps the parameters. -/
theorem decoderNeverWritesTheBuffer : Obligations.DecoderNeverWritesTheBuffer := by
  intro s t h
  rcases step_attaches_or_keeps h with ⟨c, hc, rfl⟩ | ⟨cfg, buf, len⟩
  · exact ⟨startDecode_cfg c s, fun noStart => by simp [hc] at noStart⟩
  · exact ⟨cfg, fun _ => ⟨buf, len⟩⟩

/-! ### The buffer stays whole -/

/-- START attaches a whole buffer: where the host's data ends, free bytes follow (R52, R202 (b)). -/
theorem bufferInv_startDecode (c : StartCommand) (s : State) : BufferInv (startDecode c s) := by
  refine ⟨memoryWf_attach _ _ _, fun a below => ?_⟩
  rw [startDecode_len] at below
  rw [startDecode_buf, startDecode_len, memRead_attach, if_pos below]
  rfl

/-- The buffer's invariant speaks of `BUF` and `LEN` alone. -/
theorem bufferInv_of_eq {s t : State} (hs : BufferInv s) (buf : t.buf = s.buf) (len : t.len = s.len) :
    BufferInv t := by
  unfold BufferInv at *
  rw [buf, len]
  exact hs

/-- Settles O51: START attaches a whole buffer, and no other step writes it. -/
theorem everyStepKeepsTheBufferWhole : Obligations.EveryStepKeepsTheBufferWhole := by
  intro s t inv h
  rcases step_attaches_or_keeps h with ⟨c, _, rfl⟩ | ⟨_, buf, len⟩
  · exact bufferInv_startDecode c s
  · exact bufferInv_of_eq inv buf len

/-! ### No step reads outside the buffer -/

/-- Under the invariants the window on the stream has a value, since it never reaches past `REM` (R59). -/
theorem window_of_inv {s : State} (hc : CursorInv s) (hb : BufferInv s) (most : Nat) :
    ∃ bits, window most s = some bits :=
  streamBits_of_inv hc hb (Nat.min_le_left s.rem most)

/-- In `HEADER` the element fetched can be executed (R36 row 2). -/
theorem runElement_fetchHdr_next {s : State} (hc : CursorInv s) (hb : BufferInv s) :
    ∃ t, runElement (fetchHdr s) s = .next t := by
  obtain ⟨bits, hw⟩ := window_of_inv hc hb 3
  obtain ⟨v, f, element⟩ := elementOf_decodeHdr bits
  rw [fetchHdr_of_window hw, element]
  exact exec_element_next (i := .hdr v f) s (by simp)

/-- In the run loop the element fetched can be executed (R36 row 4). -/
theorem runElement_fetchRun_next {s : State} (hc : CursorInv s) (hb : BufferInv s) :
    ∃ t, runElement (fetchRun s) s = .next t := by
  obtain ⟨bits, hw⟩ := window_of_inv hc hb Config.longestElement
  rw [fetchRun_of_window hw]
  exact exec_element_next s (elementOf_decodeRun bits).1

/-- A START is accepted or refused, in every phase (R203, R206). -/
theorem startStep_ne_fault (c : StartCommand) (s : State) (f : Fault) : startStep c s ≠ .fault f := by
  have accept : acceptStart c s ≠ .fault f := by
    unfold acceptStart
    split_ifs <;> simp
  cases hp : s.phase <;> simp [startStep, hp, accept]

/-- The expander reads no memory: it goes on, ends, or is refused (R36 rows 7 and 8, R159). -/
theorem expandNext_ne_fault (s : State) (f : Fault) : expandNext s ≠ .fault f := by
  unfold expandNext
  cases s.runs[s.ridx]? with
  | none => simp
  | some r =>
    simp only
    split_ifs <;> simp

/-- Of the decoder's rows only the two that fetch read the buffer, and their fetch has a value (R52). -/
theorem decoderStep_ne_fault {s : State} (hc : CursorInv s) (hb : BufferInv s) (f : Fault) :
    decoderStep s ≠ .fault f := by
  cases hp : s.phase <;> simp only [decoderStep, hp]
  case idle => simp
  case header =>
    obtain ⟨t, ht⟩ := runElement_fetchHdr_next hc hb
    simp [ht]
  case runs =>
    obtain ⟨t, ht⟩ := runElement_fetchRun_next hc hb
    split_ifs <;> simp [ht]
  case expand => exact expandNext_ne_fault s f
  case done => simp

/-- Settles O48: neither the host's side of a step nor the decoder's ends in the fault. -/
theorem noStepReadsOutsideTheBuffer : Obligations.NoStepReadsOutsideTheBuffer := by
  intro s hc hb f
  cases port : s.start with
  | some c => simpa only [step, machineStep, port] using startStep_ne_fault c s f
  | none => simpa only [step, machineStep, port] using decoderStep_ne_fault hc hb f

end Sys2Proof.Laws
end

section
/-! The elements and their encodings (spec/30_encoding.md R71 to R76): what the decoder reads is exactly the
well-formed elements, each on its own encoding. -/

namespace Sys2Proof.Laws

/-! ### The header -/

/-- Settles O14: the decoder, run on each of the words. -/
theorem knownElementsDecode : Obligations.KnownElementsDecode := by
  unfold Obligations.KnownElementsDecode
  decide

/-- Settles O15: three bits stand in front, and they are the two fields'. -/
theorem headerDecodesFromItsEncoding : Obligations.HeaderDecodesFromItsEncoding := by
  intro v f rest
  have hv := fieldOf_bitsOfField v
  have hf := fieldOf_bitsOfField f
  match hvb : bitsOfField v, bitsOfField_length v, hfb : bitsOfField f, bitsOfField_length f with
  | [v0, v1], _, [f0], _ =>
    rw [hvb] at hv
    rw [hfb] at hf
    simp only [encode, hvb, hfb, List.cons_append, List.nil_append, decodeHdr, hv, hf]

/-! ### What each tag selects -/

/-- After the tag `0 1` the next four bits are the literal, whatever follows them (R73). -/
theorem decodeRun_encode_runlit (lit : BitVec 4) (rest : List Bool) :
    decodeRun (encode (.runlit lit) ++ rest) = .ok (.runlit lit) := by
  have hlit := fieldOf_bitsOfField lit
  match hb : bitsOfField lit, bitsOfField_length lit with
  | [l0, l1, l2, l3], _ =>
    rw [hb] at hlit
    simp only [encode, hb, List.cons_append, List.nil_append, decodeRun, hlit]

/-- After the tag `0 0` a zero tail is a pad (R75, R76). -/
theorem decodeRun_of_tailZero {rest : List Bool} (h : tailZero rest = true) :
    decodeRun (false :: false :: rest) = .ok (.runpad rest.length) := by
  simp only [decodeRun, h, if_true]

/-- After the tag `0 0`, where no zero tail stands, the groups are read (R74, R76). -/
theorem decodeRun_of_not_tailZero {rest : List Bool} (h : ¬ tailZero rest = true) :
    decodeRun (false :: false :: rest)
      = if (readGroups Config.varMaxBytes rest).2 then .ok (.runvar (readGroups Config.varMaxBytes rest).1)
        else .error (.group (readGroups Config.varMaxBytes rest).1) := by
  simp only [decodeRun, if_neg h]

/-- More than 7 bits are no zero tail (R105). -/
theorem not_tailZero_of_long {bits : List Bool} (h : 8 ≤ bits.length) : ¬ tailZero bits = true := by
  rw [tailZero_iff]
  omega

theorem runpad_wf_iff {pad : Nat} : (Instr.runpad pad).wf = true ↔ 1 ≤ pad ∧ pad ≤ 7 := by
  rw [Instr.wf, Bool.and_eq_true, decide_eq_true_iff, decide_eq_true_iff, Config.padMax]

theorem tailZero_replicate {pad : Nat} (h : (Instr.runpad pad).wf = true) :
    tailZero (List.replicate pad false) = true := by
  obtain ⟨low, high⟩ := runpad_wf_iff.mp h
  rw [tailZero_iff, List.length_replicate]
  exact ⟨low, high, fun b hb => List.eq_of_mem_replicate hb⟩

/-- Well-formed groups are 8 bits at least, so the tag `0 0` before them selects no pad (R76). -/
theorem not_tailZero_bitsOfGroups {gs : List Byte} (h : groupsWf Config.varMaxBytes gs = true)
    (rest : List Bool) : ¬ tailZero (bitsOfGroups gs ++ rest) = true := by
  have nonempty : 0 < gs.length := (groupsWf_length h).2 (by decide)
  refine not_tailZero_of_long ?_
  rw [List.length_append, bitsOfGroups_length]
  omega

/-- Settles O19: the test after the tag is `TAILZERO()`, and the other branch reads no pad. -/
theorem padSelectedByZeroTail : Obligations.PadSelectedByZeroTail := by
  intro rest
  rw [← tailZero_iff]
  constructor
  · rintro ⟨p, h⟩
    by_contra noTail
    rw [decodeRun_of_not_tailZero noTail] at h
    split_ifs at h
    simp at h
  · exact fun tail => ⟨_, decodeRun_of_tailZero tail⟩

/-! ### The decoder reads exactly the well-formed elements -/

/-- A well-formed run element stands at the front of the bits on its own encoding; a `RUNPAD` stands on all
of them (R72 to R76). -/
inductive StandsOn : List Bool → Instr → Prop
  | run1 (rest : List Bool) : StandsOn (encode .run1 ++ rest) .run1
  | runlit (lit : BitVec 4) (rest : List Bool) : StandsOn (encode (.runlit lit) ++ rest) (.runlit lit)
  | runvar (gs : List Byte) (rest : List Bool) (wf : (Instr.runvar gs).wf = true) :
      StandsOn (encode (.runvar gs) ++ rest) (.runvar gs)
  | runpad (pad : Nat) (wf : (Instr.runpad pad).wf = true) :
      StandsOn (encode (.runpad pad)) (.runpad pad)

/-- Decoding an encoding: each tag leads to its element, which is read back from its own bits. -/
theorem StandsOn.decodeRun_eq {bits : List Bool} {i : Instr} (h : StandsOn bits i) :
    decodeRun bits = .ok i := by
  cases h with
  | run1 rest => rfl
  | runlit lit rest => exact decodeRun_encode_runlit lit rest
  | runvar gs rest wf =>
    have read := readGroups_bitsOfGroups Config.varMaxBytes gs rest wf
    have select := decodeRun_of_not_tailZero (not_tailZero_bitsOfGroups wf rest)
    simp only [read, if_true] at select
    exact select
  | runpad pad wf =>
    have select := decodeRun_of_tailZero (tailZero_replicate wf)
    rw [List.length_replicate] at select
    exact select

/-- After the tag `0 0`: a zero tail is the pad's encoding, and groups that end the element are their own. -/
theorem standsOn_of_zero_tag {rest : List Bool} {i : Instr}
    (h : decodeRun (false :: false :: rest) = .ok i) : StandsOn (false :: false :: rest) i := by
  by_cases tail : tailZero rest = true
  · rw [decodeRun_of_tailZero tail] at h
    obtain rfl := Except.ok.inj h
    obtain ⟨low, high, zero⟩ := (tailZero_iff rest).mp tail
    have pad := StandsOn.runpad rest.length (runpad_wf_iff.mpr ⟨low, high⟩)
    rw [encode, ← List.eq_replicate_of_mem zero] at pad
    exact pad
  · rw [decodeRun_of_not_tailZero tail] at h
    obtain ⟨⟨after, stand⟩, wf, _, _⟩ := readGroups_spec Config.varMaxBytes rest
    split_ifs at h with ended
    obtain rfl := Except.ok.inj h
    have groups := StandsOn.runvar _ after (wf ended)
    rw [encode, List.append_assoc, stand] at groups
    exact groups

/-- The decoder reads a run element exactly where it stands (R72 to R76). -/
theorem decodeRun_eq_ok_iff {bits : List Bool} {i : Instr} : decodeRun bits = .ok i ↔ StandsOn bits i := by
  refine ⟨fun h => ?_, StandsOn.decodeRun_eq⟩
  match bits with
  | [] | [false] | [false, true] | [false, true, _] | [false, true, _, _] | [false, true, _, _, _] =>
    simp [decodeRun] at h
  | true :: rest =>
    obtain rfl := Except.ok.inj h
    exact .run1 rest
  | false :: true :: l0 :: l1 :: l2 :: l3 :: rest =>
    obtain rfl := Except.ok.inj h
    have literal := StandsOn.runlit (fieldOf 4 [l0, l1, l2, l3]) rest
    rw [encode, show bitsOfField (fieldOf 4 [l0, l1, l2, l3]) = [l0, l1, l2, l3] from
      bitsOfField_fieldOf [l0, l1, l2, l3]] at literal
    exact literal
  | false :: false :: rest => exact standsOn_of_zero_tag h

/-- The encoder writes as many bits as the element has, whatever the element. -/
theorem encode_length (i : Instr) : (encode i).length = i.bits := by
  cases i with
  | hdr version first => exact EncodeLength.hdr version first
  | run1 => exact EncodeLength.run1
  | runlit lit => exact EncodeLength.runlit lit
  | runvar groups => exact EncodeLength.runvar groups
  | runpad pad => exact EncodeLength.runpad pad
  | nextbits n => exact EncodeLength.nextbits n

/-- Settles O16: a well-formed run element stands on its encoding, a pad on an encoding with nothing after
it. -/
theorem runElementsDecodeFromTheirEncoding : Obligations.RunElementsDecodeFromTheirEncoding := by
  intro i rest wf notHdr notNextbits padLast
  rw [decodeRun_eq_ok_iff]
  cases i with
  | hdr v f => exact absurd rfl (notHdr v f)
  | run1 => exact .run1 rest
  | runlit lit => exact .runlit lit rest
  | runvar gs => exact .runvar gs rest wf
  | runpad pad =>
    rw [padLast pad rfl, List.append_nil]
    exact .runpad pad wf
  | nextbits n => exact absurd rfl (notNextbits n)

/-- Settles O17: what the decoder reads stands on its own encoding. -/
theorem decodedElementStandsOnItsEncoding : Obligations.DecodedElementStandsOnItsEncoding := by
  intro bits i h
  have bitCount : i.bits = (encode i).length := (encode_length i).symm
  cases decodeRun_eq_ok_iff.mp h with
  | run1 rest => exact ⟨rfl, bitCount, List.prefix_append _ _, by simp⟩
  | runlit lit rest => exact ⟨rfl, bitCount, List.prefix_append _ _, by simp⟩
  | runvar gs rest wf => exact ⟨wf, bitCount, List.prefix_append _ _, by simp⟩
  | runpad pad wf => exact ⟨wf, bitCount, List.prefix_rfl, fun _ _ => rfl⟩

/-! ### The map is complete -/

theorem natOfBits_mod_two (b : Bool) (rest : List Bool) : natOfBits (b :: rest) % 2 = b.toNat := by
  rw [natOfBits, Nat.add_mul_mod_self_left, Nat.mod_eq_of_lt b.toNat_lt]

theorem natOfBits_mod_four (b1 b2 : Bool) (rest : List Bool) :
    natOfBits (b1 :: b2 :: rest) % 4 = b1.toNat + 2 * b2.toNat := by
  have h1 := b1.toNat_lt
  have h2 := b2.toNat_lt
  rw [natOfBits, natOfBits]
  omega

/-- With the bits of 10 groups after the tag `0 0` a `RUNVAR` is selected (R76, R79). -/
theorem decodeRun_zero_tag_of_long {rest : List Bool} (h : 8 * Config.varMaxBytes ≤ rest.length) :
    ∃ gs, decodeRun (false :: false :: rest) = .ok (.runvar gs) := by
  obtain ⟨_, _, enough, _⟩ := readGroups_spec Config.varMaxBytes rest
  rw [decodeRun_of_not_tailZero (not_tailZero_of_long (le_trans (by decide) h)), if_pos (enough h)]
  exact ⟨_, rfl⟩

/-- Settles O18: the first bit, and where it is 0 the second, are the window's low bits and select the
element. -/
theorem everyTagSelectsOneElement : Obligations.EveryTagSelectsOneElement := by
  intro bits long
  match bits with
  | true :: b :: rest =>
    refine ⟨.run1, rfl, ?_⟩
    cases b <;> simp [natOfBits_mod_two, natOfBits_mod_four]
  | false :: true :: l0 :: l1 :: l2 :: l3 :: rest =>
    refine ⟨.runlit (fieldOf 4 [l0, l1, l2, l3]), rfl, ?_⟩
    simp [natOfBits_mod_two, natOfBits_mod_four]
  | false :: false :: rest =>
    have longRest : 8 * Config.varMaxBytes ≤ rest.length := by
      simp only [Config.longestElement, List.length_cons] at long
      omega
    obtain ⟨gs, read⟩ := decodeRun_zero_tag_of_long longRest
    refine ⟨.runvar gs, read, ?_⟩
    simp [natOfBits_mod_two, natOfBits_mod_four]
  | [] | [_] | [false, true] | [false, true, _] | [false, true, _, _] | [false, true, _, _, _] =>
    simp [Config.longestElement, Config.varMaxBytes] at long

end Sys2Proof.Laws
end

section
/-! The groups of a `RUNVAR` (spec/30_encoding.md R74, R78, R81, R84): the accepted lists are exactly the
minimal groups of the values they carry. -/

namespace Sys2Proof.Laws

open Sys2Proof.Machine

/-! ### Accepted groups, by recursion -/

/-- The groups of an accepted `RUNVAR` where `more` groups may follow the first one: each but the last has
its continuation flag, the last is no `0x00` unless it is the only one, and the last that may be read is 1
at most (R74). -/
inductive CanonicalGroups : Nat → List Byte → Prop
  | last (more : Nat) (g : Byte) (ends : g.toNat < 128) (fits : more = 0 → g.toNat ≤ 1) :
      CanonicalGroups more [g]
  | cons (more : Nat) (g : Byte) (gs : List Byte) (continues : 128 ≤ g.toNat)
      (rest : CanonicalGroups more gs) (nonzero : gs ≠ [0]) : CanonicalGroups (more + 1) (g :: gs)

theorem contFlag_iff (g : Byte) : contFlag g = true ↔ 128 ≤ g.toNat := by
  simp [contFlag, BitVec.msb_eq_decide]

theorem CanonicalGroups.length_pos {more : Nat} {gs : List Byte} (h : CanonicalGroups more gs) :
    0 < gs.length := by
  cases h <;> simp

theorem canonicalGroups_singleton {more : Nat} {g : Byte} :
    CanonicalGroups more [g] ↔ g.toNat < 128 ∧ (more = 0 → g.toNat ≤ 1) := by
  constructor
  · intro h
    cases h with
    | last _ _ ends fits => exact ⟨ends, fits⟩
    | cons _ _ _ _ rest _ => exact absurd rest.length_pos (by simp)
  · exact fun ⟨ends, fits⟩ => .last more g ends fits

theorem canonicalGroups_cons_cons {more : Nat} {g g' : Byte} {gs : List Byte} :
    CanonicalGroups (more + 1) (g :: g' :: gs)
      ↔ 128 ≤ g.toNat ∧ CanonicalGroups more (g' :: gs) ∧ g' :: gs ≠ [0] := by
  constructor
  · intro h
    cases h with
    | cons _ _ _ continues rest nonzero => exact ⟨continues, rest, nonzero⟩
  · exact fun ⟨continues, rest, nonzero⟩ => .cons more g _ continues rest nonzero

theorem not_canonicalGroups_zero_cons_cons {g g' : Byte} {gs : List Byte} :
    ¬ CanonicalGroups 0 (g :: g' :: gs) := by
  intro h
  cases h

/-- `g_9 ≤ 1` and "no terminating `0x00` but the first", stated of the last group, where `more` groups may
follow the first (R74). -/
def LastGroupAccepted (more : Nat) (gs : List Byte) : Prop :=
  (gs.length = more + 1 → (gs.getLastD 0).toNat ≤ 1) ∧ (gs.length = 1 ∨ gs.getLastD 0 ≠ 0)

theorem lastGroupAccepted_singleton {more : Nat} {g : Byte} :
    LastGroupAccepted more [g] ↔ (more = 0 → g.toNat ≤ 1) := by
  simp [LastGroupAccepted]

theorem lastGroupAccepted_cons_cons {more : Nat} {g g' : Byte} {gs : List Byte} :
    LastGroupAccepted (more + 1) (g :: g' :: gs)
      ↔ LastGroupAccepted more (g' :: gs) ∧ g' :: gs ≠ [0] := by
  cases gs <;> simp [LastGroupAccepted]

theorem groupsWf_singleton {more : Nat} {g : Byte} :
    groupsWf (more + 1) [g] = true ↔ g.toNat < 128 ∨ more = 0 := by
  rw [groupsWf, ← contFlag, ← Nat.not_le, ← contFlag_iff]
  split_ifs with continues
  · cases more <;> simp [groupsWf, continues]
  · simp [continues]

theorem groupsWf_cons_cons {more : Nat} {g g' : Byte} {gs : List Byte} :
    groupsWf (more + 1) (g :: g' :: gs) = true ↔ 128 ≤ g.toNat ∧ groupsWf more (g' :: gs) = true := by
  rw [groupsWf, ← contFlag, ← contFlag_iff]
  split_ifs with continues <;> simp [continues]

/-- R74's constraints, stated of the whole list, are those of the recursion. -/
theorem canonicalGroups_iff (more : Nat) (gs : List Byte) :
    CanonicalGroups more gs ↔ groupsWf (more + 1) gs = true ∧ LastGroupAccepted more gs := by
  induction gs generalizing more with
  | nil => exact iff_of_false (fun h => by simpa using h.length_pos) (by simp [groupsWf])
  | cons g gs ih =>
    match gs, more with
    | [], more =>
      rw [canonicalGroups_singleton, groupsWf_singleton, lastGroupAccepted_singleton]
      omega
    | g' :: gs, 0 =>
      exact iff_of_false not_canonicalGroups_zero_cons_cons (by simp [groupsWf])
    | g' :: gs, more + 1 =>
      rw [canonicalGroups_cons_cons, groupsWf_cons_cons, lastGroupAccepted_cons_cons, ih]
      simp only [and_assoc]

/-! ### The value of canonical groups -/

/-- A group with its continuation flag carries 128 less than its byte (R74). -/
theorem payload_of_continues {g : Byte} (h : 128 ≤ g.toNat) : (g &&& 0x7F#8).toNat = g.toNat - 128 := by
  rw [payload_toNat]
  omega

theorem payload_of_ends {g : Byte} (h : g.toNat < 128) : (g &&& 0x7F#8).toNat = g.toNat := by
  rw [payload_toNat, Nat.mod_eq_of_lt h]

/-- Each group holds 7 bits of the value, the last that may be read 1 bit (R74, R78). -/
theorem CanonicalGroups.value_lt {more : Nat} {gs : List Byte} (h : CanonicalGroups more gs) :
    groupsValue gs < 2 ^ (7 * gs.length) ∧ groupsValue gs < 2 ^ (7 * more + 1) := by
  induction h with
  | last more g ends fits =>
    rw [groupsValue, payload_of_ends ends, groupsValue]
    refine ⟨by simpa using ends, ?_⟩
    rcases Nat.eq_zero_or_pos more with rfl | pos
    · have := fits rfl
      omega
    · calc g.toNat + 128 * 0 < 2 ^ 7 := by omega
        _ ≤ 2 ^ (7 * more + 1) := Nat.pow_le_pow_right (by norm_num) (by omega)
  | cons more g gs continues rest nonzero ih =>
    obtain ⟨byLength, byRoom⟩ := ih
    have payload : (g &&& 0x7F#8).toNat < 128 := by rw [payload_toNat]; omega
    have splitLength : 2 ^ (7 * (g :: gs).length) = 128 * 2 ^ (7 * gs.length) := by
      rw [List.length_cons]; ring
    have splitRoom : 2 ^ (7 * (more + 1) + 1) = 128 * 2 ^ (7 * more + 1) := by ring
    rw [groupsValue, splitLength, splitRoom]
    omega

/-- Canonical groups other than the single `0x00` need their last group: its payload is not 0 (R81). -/
theorem CanonicalGroups.le_value {more : Nat} {gs : List Byte} (h : CanonicalGroups more gs)
    (nonzero : gs ≠ [0]) : 2 ^ (7 * (gs.length - 1)) ≤ groupsValue gs := by
  induction h with
  | last more g ends fits =>
    have : g.toNat ≠ 0 := fun zero => nonzero (by rw [BitVec.eq_of_toNat_eq (y := 0) zero])
    have value : groupsValue [g] = g.toNat := payload_of_ends ends
    rw [value]
    exact Nat.pos_of_ne_zero this
  | cons more g gs continues rest restNonzero ih =>
    have shorter := ih restNonzero
    have split : 2 ^ (7 * ((g :: gs).length - 1)) = 128 * 2 ^ (7 * (gs.length - 1)) := by
      obtain ⟨k, hk⟩ := Nat.exists_eq_add_of_le' rest.length_pos
      simp only [List.length_cons, hk, Nat.add_sub_cancel]
      ring
    rw [groupsValue, split]
    omega

theorem CanonicalGroups.value_pos {more : Nat} {gs : List Byte} (h : CanonicalGroups more gs)
    (nonzero : gs ≠ [0]) : 0 < groupsValue gs :=
  lt_of_lt_of_le (by positivity) (h.le_value nonzero)

/-! ### Minimal groups are the canonical groups -/

/-- Canonical groups are the groups that R84 writes for their value. -/
theorem CanonicalGroups.groupsOfNat_value {more : Nat} {gs : List Byte} (h : CanonicalGroups more gs) :
    groupsOfNat more (groupsValue gs) = gs := by
  induction h with
  | last more g ends fits =>
    have value : groupsValue [g] = g.toNat := payload_of_ends ends
    rw [value]
    cases more <;> simp [groupsOfNat, ends]
  | cons more g gs continues rest nonzero ih =>
    have pos := rest.value_pos nonzero
    have small := g.isLt
    have payload := payload_of_continues continues
    have low : groupsValue (g :: gs) % 128 + 128 = g.toNat := by rw [groupsValue]; omega
    have high : groupsValue (g :: gs) / 128 = groupsValue gs := by rw [groupsValue]; omega
    have large : ¬ groupsValue (g :: gs) < 128 := by rw [groupsValue]; omega
    rw [groupsOfNat, if_neg large, low, high, ih, BitVec.ofNat_toNat, BitVec.setWidth_eq]

/-- One group carries a value below 128, and below 2 where no group may follow it. -/
theorem canonicalGroups_ofNat {more n : Nat} (small : n < 128) (fits : more = 0 → n ≤ 1) :
    CanonicalGroups more [BitVec.ofNat 8 n] ∧ groupsValue [BitVec.ofNat 8 n] = n := by
  have byte : (BitVec.ofNat 8 n).toNat = n := Nat.mod_eq_of_lt (by omega)
  refine ⟨.last more _ (by rwa [byte]) (by rwa [byte]), ?_⟩
  rw [groupsValue, payload_of_ends (by rwa [byte]), byte, groupsValue, Nat.mul_zero, Nat.add_zero]

/-- The groups that R84 writes for a value are canonical, if the value fits, and carry it. -/
theorem groupsOfNat_canonical {more n : Nat} (h : n < 2 ^ (7 * more + 1)) :
    CanonicalGroups more (groupsOfNat more n) ∧ groupsValue (groupsOfNat more n) = n := by
  induction more generalizing n with
  | zero => exact canonicalGroups_ofNat (by omega) (by omega)
  | succ more ih =>
    rw [groupsOfNat]
    split_ifs with small
    · exact canonicalGroups_ofNat small (by simp)
    · have split : 2 ^ (7 * (more + 1) + 1) = 128 * 2 ^ (7 * more + 1) := by ring
      obtain ⟨rest, value⟩ := ih (n := n / 128) (by omega)
      have byte : (BitVec.ofNat 8 (n % 128 + 128)).toNat = n % 128 + 128 :=
        Nat.mod_eq_of_lt (by omega)
      have nonzero : groupsOfNat more (n / 128) ≠ [0] := by
        intro zero
        rw [zero, show groupsValue [0] = 0 from rfl] at value
        omega
      refine ⟨.cons more _ _ (by omega) rest nonzero, ?_⟩
      rw [groupsValue, payload_of_continues (by omega), byte, value]
      omega

/-- The check on a `RUNVAR` is the recursion's, where 9 groups may follow the first (R74). -/
theorem groupsAccepted_iff (gs : List Byte) : groupsAccepted gs = true ↔ CanonicalGroups 9 gs := by
  rw [canonicalGroups_iff, groupsAccepted, LastGroupAccepted]
  simp [and_assoc, Config.varMaxBytes, Config.varLastMax, BitVec.le_def, imp_iff_not_or]

theorem minimalGroups_canonical (n : RunLen) :
    CanonicalGroups 9 (minimalGroups n) ∧ groupsValue (minimalGroups n) = n.toNat :=
  groupsOfNat_canonical n.isLt

/-- Settles O20: the minimal groups are canonical, and canonical groups of more than one group need each
of them. -/
theorem minimalGroupsCarryTheirValue : Obligations.MinimalGroupsCarryTheirValue := by
  intro n
  obtain ⟨canonical, value⟩ := minimalGroups_canonical n
  refine ⟨(groupsAccepted_iff _).mpr canonical, value, ?_, fun several => ?_⟩
  · have := canonical.value_lt.1
    rwa [value] at this
  · have := canonical.le_value (by rintro single; simp [single] at several)
    rwa [value] at this

/-- Settles O21: accepted groups are canonical, and those are the groups written for their value. -/
theorem acceptedGroupsAreMinimal : Obligations.AcceptedGroupsAreMinimal := by
  intro gs accepted
  have canonical := (groupsAccepted_iff gs).mp accepted
  have fits : groupsValue gs < 2 ^ 64 := canonical.value_lt.2
  refine ⟨fits, ?_⟩
  rw [minimalGroups, BitVec.toNat_ofNat, Nat.mod_eq_of_lt fits]
  exact canonical.groupsOfNat_value

end Sys2Proof.Laws
end

section
/-! The listings of the assembler and the reference decode (spec/30_encoding.md R83 to R85,
spec/43_expander.md R158): the big integer of a buffer, read by a cursor, gives the elements whose encodings
the listing writes. -/

namespace Sys2Proof.Laws

open Sys2Proof.Machine Sys2Proof.Safety

/-! ### Bits and the big integer -/

theorem natOfBits_append (a b : List Bool) :
    natOfBits (a ++ b) = natOfBits a + 2 ^ a.length * natOfBits b := by
  induction a with
  | nil => simp [natOfBits]
  | cons x a ih =>
    simp only [List.cons_append, natOfBits, ih, List.length_cons, pow_succ]
    ring

theorem natOfBits_bitsOfField {w : Nat} (v : BitVec w) : natOfBits (bitsOfField v) = v.toNat := by
  rw [bitsOfField, natOfBits_bitsOfNat, Nat.mod_eq_of_lt v.isLt]

/-- The buffer's integer is the value of its stream bits (R6, R7). -/
theorem bigNat_eq_natOfBits (data : List Byte) : bigNat data = natOfBits (bitsOfBytes data) := by
  induction data with
  | nil => rfl
  | cons b bs ih =>
    rw [bigNat, bitsOfBytes, natOfBits_append, natOfBits_bitsOfField, bitsOfField_length, ih]
    rfl

/-- Bits that are whole bytes are the stream bits of these bytes (R85). -/
theorem bitsOfBytes_bytesOfBits {bits : List Bool} (whole : bits.length % 8 = 0) :
    bitsOfBytes (bytesOfBits bits) = bits := by
  induction bits using bytesOfBits.induct with
  | case1 b0 b1 b2 b3 b4 b5 b6 b7 rest ih =>
    have byte : bitsOfField (fieldOf 8 [b0, b1, b2, b3, b4, b5, b6, b7]) = [b0, b1, b2, b3, b4, b5, b6, b7] :=
      bitsOfField_fieldOf [b0, b1, b2, b3, b4, b5, b6, b7]
    rw [bytesOfBits, bitsOfBytes, byte, ih (by simp only [List.length_cons] at whole; omega)]
    rfl
  | case2 bits short =>
    match bits with
    | [] => rfl
    | [_] | [_, _] | [_, _, _] | [_, _, _, _] | [_, _, _, _, _] | [_, _, _, _, _, _]
    | [_, _, _, _, _, _, _] => simp at whole
    | b0 :: b1 :: b2 :: b3 :: b4 :: b5 :: b6 :: b7 :: rest =>
      exact absurd rfl (short b0 b1 b2 b3 b4 b5 b6 b7 rest)

/-- A listing of elements writes their encodings one after another (R85). -/
theorem asmListing_elements (written : List Bool) (is : List Instr) :
    asmListing written (is.map AsmLine.element) = written ++ is.flatMap encode := by
  induction is generalizing written with
  | nil => simp [asmListing]
  | cons i is ih => simp [asmListing, asmBits, ih]

/-- The buffer that a listing of elements assembles to holds their encodings and nothing else (R85). -/
theorem bitsOfBytes_of_assemble {is : List Instr} {data : List Byte}
    (h : assemble (is.map AsmLine.element) = some data) : bitsOfBytes data = is.flatMap encode := by
  simp only [assemble, asmListing_elements, List.nil_append] at h
  split_ifs at h with whole
  obtain rfl := Option.some.inj h
  exact bitsOfBytes_bytesOfBits whole

/-! ### Reading the big integer at a cursor -/

/-- The stream bits from the cursor on are `bits`: all that remain of the integer `N`, in value and in
number (R100, R103). -/
structure Remains (N pos rem : Nat) (bits : List Bool) : Prop where
  value : N / 2 ^ pos = natOfBits bits
  length : rem = bits.length

theorem remains_start (data : List Byte) :
    Remains (bigNat data) 0 (8 * data.length) (bitsOfBytes data) where
  value := by rw [pow_zero, Nat.div_one, bigNat_eq_natOfBits]
  length := (bitsOfBytes_length data).symm

/-- After the bits in front have been read, the others remain. -/
theorem Remains.skip {N pos rem : Nat} {a b : List Bool} (h : Remains N pos rem (a ++ b)) :
    Remains N (pos + a.length) (rem - a.length) b where
  value := by
    rw [pow_add, ← Nat.div_div_eq_div_mul, h.value, natOfBits_append,
      Nat.add_mul_div_left _ _ (by positivity), Nat.div_eq_of_lt (natOfBits_lt a), Nat.zero_add]
  length := by
    rw [h.length, List.length_append, Nat.add_sub_cancel_left]

/-- `NEXTBITS` gives the value of the bits in front (R100). -/
theorem Remains.next {N pos rem : Nat} {a b : List Bool} (h : Remains N pos rem (a ++ b)) :
    refNextBits N a.length pos rem = some (natOfBits a) := by
  have enough : a.length ≤ rem := by rw [h.length, List.length_append]; omega
  rw [refNextBits, if_pos enough, h.value, natOfBits_append, Nat.add_mul_mod_self_left,
    Nat.mod_eq_of_lt (natOfBits_lt a)]

theorem Remains.next_field {N pos rem w : Nat} {v : BitVec w} {rest : List Bool}
    (h : Remains N pos rem (bitsOfField v ++ rest)) :
    refNextBits N w pos rem = some v.toNat ∧ Remains N (pos + w) (rem - w) rest := by
  have read := h.next
  have after := h.skip
  rw [natOfBits_bitsOfField] at read
  rw [bitsOfField_length] at read after
  exact ⟨read, after⟩

theorem Remains.next_bit {N pos rem : Nat} {b : Bool} {rest : List Bool}
    (h : Remains N pos rem (b :: rest)) :
    refNextBits N 1 pos rem = some b.toNat ∧ Remains N (pos + 1) (rem - 1) rest :=
  ⟨by simpa [natOfBits] using Remains.next (a := [b]) h, Remains.skip (a := [b]) h⟩

theorem Remains.next_bit_pair {N pos rem : Nat} {b1 b2 : Bool} {rest : List Bool}
    (h : Remains N pos rem (b1 :: b2 :: rest)) :
    refNextBits N 1 pos rem = some b1.toNat ∧ refNextBits N 1 (pos + 1) (rem - 1) = some b2.toNat
      ∧ Remains N (pos + 2) (rem - 2) rest :=
  ⟨h.next_bit.1, h.next_bit.2.next_bit.1, Remains.skip (a := [b1, b2]) h⟩

/-! ### The branches of the reference -/

/-- `VARINT()` on a group that raises nothing and has its continuation flag (R130). -/
theorem refVarint_of_continues {N left vacc pos rem g r n : Nat}
    (read : refNextBits N 8 pos rem = some g) (fits : ¬ (9 - left = 9 ∧ 1 < g)) (continues : 128 ≤ g)
    (later : refVarint N left (vacc + g % 128 * 2 ^ (7 * (9 - left))) (pos + 8) (rem - 8) = .ok (r, n)) :
    refVarint N (left + 1) vacc pos rem = .ok (r, n + 8) := by
  rw [refVarint, read]
  simp only [if_neg fits, if_pos continues, later]

/-- `VARINT()` on a group that raises nothing and ends the element (R130). -/
theorem refVarint_of_ends {N left vacc pos rem g : Nat}
    (read : refNextBits N 8 pos rem = some g) (fits : ¬ (9 - left = 9 ∧ 1 < g)) (ends : g < 128)
    (needed : ¬ (1 ≤ 9 - left ∧ g = 0)) :
    refVarint N (left + 1) vacc pos rem = .ok (vacc + g % 128 * 2 ^ (7 * (9 - left)), 8) := by
  rw [refVarint, read]
  simp only [if_neg fits, if_neg (Nat.not_le.mpr ends), if_neg needed]

/-- `RUNSTEP` after the tag `1` (R128). -/
theorem refRunStep_of_one {N pos rem : Nat} (tag : refNextBits N 1 pos rem = some 1) :
    refRunStep N pos rem = .ok (1, 1) := by
  simp only [refRunStep, tag]

/-- `RUNSTEP` after the tag `0 1` (R129). -/
theorem refRunStep_of_literal {N pos rem lit : Nat} (tag1 : refNextBits N 1 pos rem = some 0)
    (tag2 : refNextBits N 1 (pos + 1) (rem - 1) = some 1)
    (read : refNextBits N 4 (pos + 2) (rem - 2) = some lit) :
    refRunStep N pos rem = .ok (lit, 6) := by
  simp only [refRunStep, tag1, tag2, read]

/-- `RUNSTEP` after the tag `0 0`, where too much remains for a zero tail (R130). -/
theorem refRunStep_of_groups {N pos rem r n : Nat} (tag1 : refNextBits N 1 pos rem = some 0)
    (tag2 : refNextBits N 1 (pos + 1) (rem - 1) = some 0) (long : 7 < rem - 2)
    (read : refVarint N 10 0 (pos + 2) (rem - 2) = .ok (r, n)) :
    refRunStep N pos rem = .ok (r, n + 2) := by
  have noTail : ¬ (1 ≤ rem - 2 ∧ rem - 2 ≤ 7 ∧ N / 2 ^ (pos + 2) % 2 ^ (rem - 2) = 0) := by omega
  simp only [refRunStep, tag1, tag2, if_neg noTail, read]

/-- The run loop takes one element and goes on after it (R136). -/
theorem refRuns_of_step {N most pos rem r n : Nat} {rs : List Nat} (remain : 0 < rem)
    (element : refRunStep N pos rem = .ok (r, n))
    (later : refRuns N most (pos + n) (rem - n) = .ok rs) :
    refRuns N (most + 1) pos rem = .ok (r :: rs) := by
  rw [refRuns, if_neg (Nat.ne_of_gt remain), element]
  simp only [later]

/-- The run loop ends at the end of the stream (R136). -/
theorem refRuns_of_end (N most pos : Nat) : refRuns N most pos 0 = .ok [] := by
  cases most <;> rfl

/-- A header of version 0 and its run loop (R115, R158). -/
theorem refParse_of_runs {data : List Byte} {first : Nat} {rs : List Nat}
    (version : refNextBits (bigNat data) 2 0 (8 * data.length) = some 0)
    (firstBit : refNextBits (bigNat data) 1 2 (8 * data.length - 2) = some first)
    (loop : refRuns (bigNat data) (8 * data.length) 3 (8 * data.length - 3) = .ok rs) :
    refParse data = .ok (first, rs) := by
  simp only [refParse, version, firstBit, loop]

/-! ### The reference on the encodings of accepted elements -/

/-- `VARINT()` on the groups of an accepted `RUNVAR`, from the group with index `9 - more` on: their value,
shifted to its place, is added (R78, R130). -/
theorem refVarint_canonical {more : Nat} {gs : List Byte} (canonical : CanonicalGroups more gs)
    {N pos rem vacc : Nat} {rest : List Bool} (room : more ≤ 9) (notZero : more = 9 ∨ gs ≠ [0])
    (h : Remains N pos rem (bitsOfGroups gs ++ rest)) :
    refVarint N (more + 1) vacc pos rem
      = .ok (vacc + groupsValue gs * 2 ^ (7 * (9 - more)), 8 * gs.length) := by
  induction canonical generalizing pos rem vacc with
  | last more g ends fits =>
    rw [bitsOfGroups, bitsOfGroups, List.append_nil] at h
    have short : ¬ (9 - more = 9 ∧ 1 < g.toNat) := by
      rintro ⟨tenth, large⟩
      exact absurd (fits (by omega)) (by omega)
    have needed : ¬ (1 ≤ 9 - more ∧ g.toNat = 0) := by
      rintro ⟨later, zero⟩
      rcases notZero with first | nonzero
      · omega
      · exact nonzero (by rw [BitVec.eq_of_toNat_eq (y := 0) zero])
    rw [refVarint_of_ends h.next_field.1 short ends needed, groupsValue, groupsValue, payload_toNat]
    rfl
  | cons more g gs continues rest' nonzero ih =>
    rw [bitsOfGroups, List.append_assoc] at h
    obtain ⟨read, after⟩ := h.next_field
    have notTenth : ¬ (9 - (more + 1) = 9 ∧ 1 < g.toNat) := by omega
    have place : 2 ^ (7 * (9 - more)) = 2 ^ (7 * (9 - (more + 1))) * 128 := by
      rw [show 7 * (9 - more) = 7 * (9 - (more + 1)) + 7 by omega, pow_add]
      rfl
    rw [refVarint_of_continues read notTenth continues (ih (by omega) (.inr nonzero) after),
      groupsValue, payload_toNat, place, List.length_cons]
    congr 2
    ring

/-- `RUNSTEP` on an accepted element that a listing can write: its run length, and its bits are read
(R77, R78, R125). -/
theorem refRunStep_encode {i : Instr} {r N pos rem : Nat} {rest : List Bool}
    (accepted : i.accepted = true) (hr : runLength i = some r)
    (h : Remains N pos rem (encode i ++ rest)) :
    refRunStep N pos rem = .ok (r, (encode i).length) := by
  cases i with
  | hdr v f => simp [runLength] at hr
  | run1 =>
    obtain rfl := Option.some.inj hr
    exact refRunStep_of_one h.next_bit.1
  | runlit lit =>
    obtain rfl := Option.some.inj hr
    obtain ⟨tag1, tag2, literal⟩ := Remains.next_bit_pair h
    exact refRunStep_of_literal tag1 tag2 literal.next_field.1
  | runvar gs =>
    obtain rfl := Option.some.inj hr
    have canonical := (groupsAccepted_iff gs).mp accepted
    obtain ⟨tag1, tag2, afterTag⟩ := Remains.next_bit_pair h
    have groups : Remains N (pos + 2) (rem - 2) (bitsOfGroups gs ++ rest) := afterTag
    have long : 7 < rem - 2 := by
      have := canonical.length_pos
      rw [groups.length, List.length_append, bitsOfGroups_length]
      omega
    have read := refVarint_canonical (vacc := 0) canonical le_rfl (.inl rfl) groups
    rw [refRunStep_of_groups tag1 tag2 long read, encode_length, Instr.bits,
      Nat.add_comm 2, Nat.zero_add]
    simp
  | runpad pad => simp [runLength] at hr
  | nextbits n => simp [runLength] at hr

/-- An element with a run length has bits (R139). -/
theorem encode_length_pos {i : Instr} (h : (runLength i).isSome) : 0 < (encode i).length := by
  rw [encode_length]
  cases i <;> simp [runLength, Instr.bits] at h ⊢

/-- The run loop on the encodings of accepted elements that fill the stream: their run lengths (R136). -/
theorem refRuns_encode {is : List Instr}
    (accepted : ∀ i ∈ is, i.accepted = true ∧ (runLength i).isSome)
    {N pos rem most : Nat} (enough : rem ≤ most) (h : Remains N pos rem (is.flatMap encode)) :
    refRuns N most pos rem = .ok (is.filterMap runLength) := by
  induction is generalizing pos rem most with
  | nil =>
    obtain rfl : rem = 0 := h.length
    exact refRuns_of_end N most pos
  | cons i is ih =>
    obtain ⟨accepted_i, hasRun⟩ := accepted i (by simp)
    obtain ⟨r, hr⟩ := Option.isSome_iff_exists.mp hasRun
    have element := refRunStep_encode accepted_i hr h
    have pos_i := encode_length_pos hasRun
    have some_remain : (encode i).length ≤ rem := by
      rw [h.length, List.flatMap_cons, List.length_append]
      omega
    obtain ⟨most, rfl⟩ := Nat.exists_eq_add_of_le' (show 1 ≤ most by omega)
    have later := ih (fun j hj => accepted j (by simp [hj])) (most := most) (by omega) h.skip
    rw [refRuns_of_step (by omega) element later, List.filterMap_cons_some hr]

/-- Settles O56: the assembled bits are the encodings, the header's fields are read from the first three
and the run loop reads the rest. -/
theorem assembledElementsDecodeToTheirRuns : Obligations.AssembledElementsDecodeToTheirRuns := by
  intro first is data accepted assembled
  have bits : bitsOfBytes data = bitsOfField (0 : BitVec 2) ++ (bitsOfField first ++ is.flatMap encode) := by
    rw [bitsOfBytes_of_assemble assembled, List.flatMap_cons, encode, List.append_assoc]
  have start := remains_start data
  rw [bits] at start
  obtain ⟨version, afterVersion⟩ := start.next_field
  obtain ⟨firstBit, afterFirst⟩ := afterVersion.next_field
  have loop := refRuns_encode accepted (Nat.le_trans (Nat.sub_le _ _) (Nat.sub_le _ _)) afterFirst
  rw [refDecode, refParse_of_runs version firstBit loop]
  simp only [BitVec.toNat_eq]
  rfl

end Sys2Proof.Laws
end

section
/-! The BitCursor (spec/40_bitcursor.md R100 to R102, R105): the three answers of `NEXTBITS`, and the tail
test read as stream bits and as the last byte of the buffer. -/

namespace Sys2Proof.Laws

open Sys2Proof.Machine Sys2Proof.Safety

/-! ### The three answers of NEXTBITS -/

/-- Settles O12: a request above 32 bits stops at the first guard of R102. -/
theorem nextBitsBeyond32IsRefused : Obligations.NextBitsBeyond32IsRefused := by
  intro s n wide
  exact if_pos wide

theorem exec_nextbits_of_lt {s : State} {n : Nat} (fits : n ≤ 32) (short : s.rem < n) :
    exec (.nextbits n) s = .next (takeError .unexpectedEnd s) :=
  (if_neg (Nat.not_lt.mpr fits)).trans (if_pos short)

theorem exec_nextbits_of_le {s : State} {n : Nat} {bits : List Bool} (fits : n ≤ 32) (enough : n ≤ s.rem)
    (read : streamBits s.buf s.len s.pos n = some bits) :
    exec (.nextbits n) s = .next (s.advance n (fieldOf n bits)) := by
  simp only [exec, execNextbits, Config.nbMax, Nat.not_lt.mpr fits, Nat.not_lt.mpr enough, if_false, read]

/-- A field of at most 32 bits reaches the port with its whole value (R100, zero-extension). -/
theorem setWidth_fieldOf {n : Nat} {bits : List Bool} (len : bits.length = n) (fits : n ≤ 32) :
    (fieldOf n bits).setWidth 32 = BitVec.ofNat 32 (natOfBits bits) := by
  subst len
  exact BitVec.setWidth_ofNat_of_le_of_lt fits (natOfBits_lt bits)

/-- Settles O11: no bit is asked for, so the guard of R100 passes and the empty read has a value, whatever
the buffer holds. -/
theorem nextBitsZeroReturnsZero : Obligations.NextBitsZeroReturnsZero := by
  intro s
  have read : streamBits s.buf s.len s.pos 0 = some [] := rfl
  rw [exec_nextbits_of_le (Nat.zero_le 32) (Nat.zero_le s.rem) read]
  rfl

/-- Settles O10: where the bits remain the invariants give each of them a value, and the port holds their
sum; where they do not, the error is taken and nothing was read. -/
theorem nextBitsReturnsTheFieldOrRaises : Obligations.NextBitsReturnsTheFieldOrRaises := by
  intro s n fits
  constructor
  · intro enough cursor buffer
    obtain ⟨bits, read⟩ := streamBits_of_inv cursor buffer enough
    rw [exec_nextbits_of_le fits enough read, State.advance, setWidth_fieldOf (streamBits_length read) fits,
      streamBits_value read]
  · intro short
    obtain ⟨t, ended, error⟩ := endsWithError_of_raised (s := s) (e := .unexpectedEnd) rfl (.refl s)
    cases ended
    exact ⟨_, exec_nextbits_of_lt fits short, error, rfl, rfl⟩

/-! ### The tail test -/

/-- Bit `k` of a read is the stream bit `k` places after its start (R100). -/
theorem streamBits_getElem? {m : List Host.Cell} {len p n k : Nat} {bits : List Bool}
    (read : streamBits m len p n = some bits) (hk : k < n) :
    bits[k]? = streamBit m len (p + k) := by
  induction n generalizing p k bits with
  | zero => omega
  | succ n ih =>
    simp only [streamBits] at read
    split at read
    · next b bs first rest =>
      cases read
      cases k with
      | zero => exact first.symm
      | succ k => rw [List.getElem?_cons_succ, ih rest (by omega), Nat.add_right_comm, Nat.add_assoc]
    · cases read

/-- A read is all zero exactly when every stream bit it covers is. -/
theorem streamBits_all_false_iff {m : List Host.Cell} {len p n : Nat} {bits : List Bool}
    (read : streamBits m len p n = some bits) :
    (∀ b ∈ bits, b = false) ↔ ∀ k, k < n → streamBit m len (p + k) = some false := by
  have length : bits.length = n := streamBits_length read
  constructor
  · intro zero k hk
    rw [← streamBits_getElem? read hk, List.getElem?_eq_getElem (length ▸ hk), zero _ (List.getElem_mem _)]
  · intro zero b member
    obtain ⟨k, hk, rfl⟩ := List.mem_iff_getElem.mp member
    have bit := streamBits_getElem? read (length ▸ hk)
    rw [zero k (length ▸ hk), List.getElem?_eq_getElem hk] at bit
    exact Option.some.inj bit

/-- `TAILZERO()` in R105's words. -/
theorem tailZeroAt_iff {s : State} (cursor : CursorInv s) (buffer : BufferInv s) :
    tailZeroAt s = true ↔
      1 ≤ s.rem ∧ s.rem ≤ 7 ∧ ∀ k, k < s.rem → streamBit s.buf s.len (s.pos + k) = some false := by
  obtain ⟨bits, read⟩ := streamBits_of_inv cursor buffer (le_refl s.rem)
  have onBits : tailZeroAt s = true ↔ (1 ≤ s.rem ∧ s.rem ≤ 7) ∧ tailZero bits = true := by
    simp [tailZeroAt, read, Config.padMax]
  rw [onBits, tailZero_iff, streamBits_length read, streamBits_all_false_iff read]
  tauto

/-- The high `r` bits of a byte are zero exactly when the byte shifted right by the others is 0. -/
theorem byte_div_eq_zero_iff (b : Byte) {r : Nat} (hr : r ≤ 8) :
    b.toNat / 2 ^ (8 - r) = 0 ↔ ∀ k, k < r → b.getLsbD (8 - r + k) = false := by
  have bit (k : Nat) : (b.toNat / 2 ^ (8 - r)).testBit k = b.getLsbD (8 - r + k) := by
    rw [Nat.testBit_div_two_pow, BitVec.testBit_toNat, Nat.add_comm]
  constructor
  · intro zero k _
    rw [← bit, zero, Nat.zero_testBit]
  · intro zero
    refine Nat.zero_of_testBit_eq_false fun k => ?_
    rw [bit]
    by_cases hk : k < r
    · exact zero k hk
    · exact BitVec.getLsbD_of_ge b _ (by omega)

/-- With 7 bits or fewer to go, each bit that remains is one of the last byte's high bits (R105). -/
theorem streamBit_of_lastByte {s : State} {b : Byte} {k : Nat} (cursor : CursorInv s) (few : s.rem ≤ 7)
    (last : memRead s.buf s.len (s.len - 1) = some b) (hk : k < s.rem) :
    streamBit s.buf s.len (s.pos + k) = some (b.getLsbD (8 - s.rem + k)) := by
  unfold CursorInv at cursor
  have address : (s.pos + k) / 8 = s.len - 1 := by omega
  have offset : (s.pos + k) % 8 = 8 - s.rem + k := by omega
  rw [streamBit, address, offset, last, Option.map_some]

/-- Settles O13: the bits that remain are the high bits of the last byte, which the buffer's invariant
gives a value. -/
theorem tailZeroLooksAtTheLastByte : Obligations.TailZeroLooksAtTheLastByte := by
  intro s cursor buffer
  refine ⟨tailZeroAt_iff cursor buffer, ?_⟩
  rw [tailZeroAt_iff cursor buffer]
  refine and_congr_right fun remain => and_congr_right fun few => ?_
  have nonempty : s.len - 1 < s.len := by
    unfold CursorInv at cursor
    omega
  obtain ⟨b, last⟩ := Option.isSome_iff_exists.mp (buffer.2 _ nonempty)
  have shifted := byte_div_eq_zero_iff b (r := s.rem) (by omega)
  calc (∀ k, k < s.rem → streamBit s.buf s.len (s.pos + k) = some false)
      ↔ ∀ k, k < s.rem → b.getLsbD (8 - s.rem + k) = false :=
        forall₂_congr fun k hk => by rw [streamBit_of_lastByte cursor few last hk, Option.some_inj]
    _ ↔ b.toNat / 2 ^ (8 - s.rem) = 0 := shifted.symm
    _ ↔ ∃ b, memRead s.buf s.len (s.len - 1) = some b ∧ b.toNat / 2 ^ (8 - s.rem) = 0 := by
        simp [last]

end Sys2Proof.Laws
end

section
/-! The header (spec/41_header.md R115 to R118): the three ways its reads end, and what the header step makes
of the first byte of the buffer. -/

namespace Sys2Proof.Laws

open Sys2Proof.Machine Sys2Proof.Safety

/-! ### How the reads of the header end -/

/-- The first read of the header raises where fewer than 2 bits remain (R118). -/
theorem hdrReads_of_lt (v : BitVec 2) (f : Bit) {s : State} (short : s.rem < 2) :
    hdrReads v f s = .raised .unexpectedEnd s := by
  simp only [hdrReads, readVersion, consume_of_lt v short, andThen_raised]

theorem readVersion_of_le (v : BitVec 2) {s : State} (enough : 2 ≤ s.rem) :
    readVersion v s = .done { s.advance 2 v with version := v } := by
  simp only [readVersion, consume_of_le v enough, andThen_done]

/-- The check stands between the two reads (R117): it raises before `FIRST` is read. -/
theorem hdrReads_of_ne_zero {v : BitVec 2} (f : Bit) {s : State} (other : v ≠ 0) (enough : 2 ≤ s.rem) :
    hdrReads v f s = .raised .invalidVersion { s.advance 2 v with version := v } := by
  have check : checkVersion { s.advance 2 v with version := v }
      = .raised .invalidVersion { s.advance 2 v with version := v } := if_neg other
  simp only [hdrReads, readVersion_of_le v enough, andThen_done, check, andThen_raised]

/-- The supported version passes the check, and the third bit is `FIRST` (R115). -/
theorem hdrReads_of_zero (f : Bit) {s : State} (enough : 3 ≤ s.rem) :
    hdrReads 0 f s = .done { s with
      pos := s.pos + 3, rem := s.rem - 3, version := 0, first := f, port := f.setWidth 32 } := by
  have check : checkVersion { s.advance 2 0 with version := 0 }
      = .done { s.advance 2 0 with version := 0 } := if_pos rfl
  have third : 1 ≤ ({ s.advance 2 0 with version := 0 } : State).rem := by
    simp only [State.advance_rem]
    omega
  simp only [hdrReads, readVersion_of_le 0 (show 2 ≤ s.rem by omega), andThen_done, check, readFirst,
    consume_of_le f third]
  rfl

/-! ### The element -/

/-- A header whose reads raise ends the decode with that error (R176). -/
theorem exec_hdr_of_raised {v : BitVec 2} {f : Bit} {s t : State} {e : DecodeError}
    (raised : hdrReads v f s = .raised e t) :
    ∃ u, exec (.hdr v f) s = .next u ∧ EndsWithError e s u := by
  have frame := hdrReads_frame v f s
  rw [raised] at frame
  have element : exec (.hdr v f) s = finish (.raised e t) := by
    rw [exec, execHdr_eq, raised, andThen_raised]
  rw [element]
  exact endsWithError_of_raised rfl frame

/-- Settles O25: the reads are done, and `PHASE` is written after them. -/
theorem hdrEntersTheRunLoop : Obligations.HdrEntersTheRunLoop := by
  intro s f enough
  rw [exec, execHdr_eq, hdrReads_of_zero f enough, andThen_done, finish_done]

/-- Settles O26: the check raises, whatever `first` is. -/
theorem hdrRejectsOtherVersions : Obligations.HdrRejectsOtherVersions := by
  intro s v f other enough
  exact exec_hdr_of_raised (hdrReads_of_ne_zero f other enough)

/-! ### The header step of an empty buffer -/

/-- Settles O28: no bit remains for the window, and the header cut short there raises at its first read. -/
theorem emptyBufferRaisesUnexpectedEnd : Obligations.EmptyBufferRaisesUnexpectedEnd := by
  intro s port phase empty
  have nothing : window 3 s = some [] := by
    simp only [window, empty, Nat.zero_min, streamBits]
  have cut : step s = exec (.hdr 0 0) s := by
    rw [step_of_header port phase, fetchHdr_of_window nothing]
    rfl
  rw [cut]
  exact exec_hdr_of_raised (hdrReads_of_lt 0 0 (by omega))

/-! ### The header step of a non-empty buffer -/

/-- The stream bits inside one byte are the bits of its value (R6, R7). -/
theorem streamBits_of_memRead {m : List Host.Cell} {len a : Nat} {b : Byte} (read : memRead m len a = some b)
    {k n : Nat} (inside : k + n ≤ 8) :
    streamBits m len (8 * a + k) n = some (bitsOfNat n (b.toNat / 2 ^ k)) := by
  induction n generalizing k with
  | zero => rfl
  | succ n ih =>
    have bit : streamBit m len (8 * a + k) = some (b.toNat.testBit k) := by
      rw [streamBit, show (8 * a + k) / 8 = a by omega, show (8 * a + k) % 8 = k by omega, read,
        Option.map_some, BitVec.testBit_toNat]
    have next : b.toNat / 2 ^ (k + 1) = b.toNat / 2 ^ k / 2 := by
      rw [pow_succ, Nat.div_div_eq_div_mul]
    simp only [streamBits, bit, Nat.add_assoc, ih (show k + 1 + n ≤ 8 by omega), next, bitsOfNat,
      Nat.testBit_eq_decide_div_mod_eq]
    rfl

/-- The low bits of a number, read as a field, are the number in that width (R7). -/
theorem fieldOf_bitsOfNat (w n : Nat) : fieldOf w (bitsOfNat w n) = BitVec.ofNat w n := by
  rw [fieldOf, natOfBits_bitsOfNat]
  exact BitVec.eq_of_toNat_eq (by simp only [BitVec.toNat_ofNat, Nat.mod_mod])

/-- The header in three bits of a number: bits 1..0 are `version`, bit 2 is `first` (R71). -/
theorem decodeHdr_bitsOfNat (n : Nat) :
    decodeHdr (bitsOfNat 3 n) = .ok (.hdr (BitVec.ofNat 2 n) (BitVec.ofNat 1 (n / 4))) := by
  rw [← fieldOf_bitsOfNat 2, ← fieldOf_bitsOfNat 1, show n / 4 = n / 2 / 2 by omega]
  rfl

/-- The header step runs the header that stands in the low three bits of byte 0 (R36 row 2, R71). -/
theorem step_of_byteZero {s : State} {b : Byte} (port : s.start = none) (phase : s.phase = .header)
    (start : s.pos = 0) (enough : 3 ≤ s.rem) (read : memRead s.buf s.len 0 = some b) :
    step s = exec (.hdr (BitVec.ofNat 2 b.toNat) (BitVec.ofNat 1 (b.toNat / 4))) s := by
  have low : streamBits s.buf s.len 0 3 = some (bitsOfNat 3 b.toNat) := by
    simpa using streamBits_of_memRead read (k := 0) (n := 3) (by omega)
  have window_eq : window 3 s = some (bitsOfNat 3 b.toNat) := by
    rw [window, start, Nat.min_eq_right enough, low]
  exact stepRunsTheDecodedHeader s _ _ port phase window_eq (decodeHdr_bitsOfNat _)

/-- A readable byte 0 lies inside the buffer (R52). -/
theorem lt_len_of_memRead {m : List Host.Cell} {len a : Nat} {b : Byte} (read : memRead m len a = some b) :
    a < len := by
  by_contra outside
  rw [memRead, if_neg outside] at read
  cases read

theorem ofNat_two_eq_zero_iff (n : Nat) : BitVec.ofNat 2 n = 0 ↔ n % 4 = 0 := by
  rw [← BitVec.toNat_inj, BitVec.toNat_ofNat]
  rfl

/-- Settles O27: byte 0 gives all 8 bits at least, so the header is whole, and its `version` decides between
the two ways on. -/
theorem headerStepLooksAtByteZero : Obligations.HeaderStepLooksAtByteZero := by
  intro s b port phase start cursor _ read
  have remain : s.rem = 8 * s.len := by
    rw [CursorInv, start, Nat.zero_add] at cursor
    exact cursor
  have nonempty : 0 < s.len := lt_len_of_memRead read
  have enough : 3 ≤ s.rem := by omega
  rw [step_of_byteZero port phase start enough read]
  constructor
  · intro other
    exact hdrRejectsOtherVersions s _ _ (mt (ofNat_two_eq_zero_iff _).mp other) (by omega)
  · intro supported
    rw [(ofNat_two_eq_zero_iff _).mpr supported]
    refine ⟨_, hdrEntersTheRunLoop s _ enough, rfl, rfl, BitVec.toNat_ofNat _ 1, ?_, ?_, rfl⟩
    · simp only [start]
    · simp only [remain]

end Sys2Proof.Laws
end

section
/-! The run elements (spec/42_runs.md R125 to R135): what each one appends and consumes where the stream holds
it whole, and everything it leaves alone. -/

namespace Sys2Proof.Laws

open Sys2Proof.Machine Sys2Proof.Safety

/-! ### RUN1 and RUNLIT -/

/-- Settles O29: its one read is done, and the append follows. -/
theorem run1AppendsOne : Obligations.Run1AppendsOne := by
  intro s enough
  rw [exec, execRun1, readB1, consume_of_le 1 enough]
  rfl

theorem runlitReads_of_le (lit : BitVec 4) {s : State} (enough : 6 ≤ s.rem) :
    runlitReads lit s = .done { s with
      pos := s.pos + 6, rem := s.rem - 6, b1 := 0, b2 := 1, port := lit.setWidth 32 } := by
  rw [runlitReads, readTag_of_le 1 (by omega), andThen_done, consume_of_le lit (by simp only; omega)]
  rfl

/-- Settles O30: the tag and the literal are read, and the append follows. -/
theorem runlitAppendsItsLiteral : Obligations.RunlitAppendsItsLiteral := by
  intro s lit enough
  rw [exec, execRunlit_eq, runlitReads_of_le lit enough, andThen_done, finish_done, literalRun,
    BitVec.ofNat_toNat, BitVec.ofNat_toNat]
  rfl

/-! ### RUNPAD -/

/-- Settles O32: after the tag, what remains is the pad. -/
theorem runpadAppendsZeroAndEndsTheStream : Obligations.RunpadAppendsZeroAndEndsTheStream := by
  intro s pad _ _ remain
  have toTheEnd : s.pos + 2 + (s.rem - 2) = s.pos + (2 + pad) := by omega
  rw [exec, execRunpad, readTag_of_le 0 (by omega), andThen_done, finish_done, State.withRun]
  simp only [toTheEnd]
  rfl

/-! ### RUNVAR -/

/-- One group alone carries its payload (R74, R78). -/
theorem groupsValue_singleton (g : Byte) : groupsValue [g] = g.toNat % 128 := payload_toNat g

/-- A group in front of others puts 7 bits below theirs (R78). -/
theorem groupsValue_cons (g : Byte) (gs : List Byte) :
    groupsValue (g :: gs) = groupsValue [g] + 128 * groupsValue gs := rfl

/-- The registers once `VARINT()` has read the groups `gs`, the first of them at `VIDX = k` with
`VACC = a` (R130). -/
def groupsRead (gs : List Byte) (k a : Nat) (s : State) : State :=
  { s with
    pos := s.pos + 8 * gs.length, rem := s.rem - 8 * gs.length
    vbyte := gs.getLastD 0, vidx := BitVec.ofNat 4 (k + (gs.length - 1))
    vacc := BitVec.ofNat 64 (a + 2 ^ (7 * k) * groupsValue gs)
    port := (gs.getLastD 0).setWidth 32 }

/-- Where another group follows, `VIDX` counts on (R130). -/
def nextGroup (g : Byte) (k a : Nat) (s : State) : State :=
  { groupsRead [g] k a s with vidx := BitVec.ofNat 4 (k + 1) }

/-- Reading one group and then the others is reading them all (R78: each group has 7 bits of the value). -/
theorem groupsRead_nextGroup (g : Byte) {gs : List Byte} (more : 0 < gs.length) (k a : Nat) (s : State) :
    groupsRead gs (k + 1) (a + 2 ^ (7 * k) * groupsValue [g]) (nextGroup g k a s)
      = groupsRead (g :: gs) k a s := by
  obtain ⟨g', gs, rfl⟩ := List.exists_cons_of_length_pos more
  have cursor : s.pos + 8 * 1 + 8 * (gs.length + 1) = s.pos + 8 * (gs.length + 1 + 1) := by omega
  have remaining : s.rem - 8 * 1 - 8 * (gs.length + 1) = s.rem - 8 * (gs.length + 1 + 1) := by omega
  have index : k + 1 + gs.length = k + (gs.length + 1) := by omega
  have value : a + 2 ^ (7 * k) * groupsValue [g] + 2 ^ (7 * (k + 1)) * groupsValue (g' :: gs)
      = a + 2 ^ (7 * k) * groupsValue (g :: g' :: gs) := by
    rw [groupsValue_cons g (g' :: gs), show 7 * (k + 1) = 7 * k + 7 by omega, pow_add]
    ring
  simp only [groupsRead, nextGroup, List.length_cons, List.length_nil, Nat.zero_add,
    Nat.add_sub_cancel, cursor, remaining, index, value]
  rfl

/-- R130's OR puts a share that fits above the bits already gathered: R78's sum. -/
theorem or_groupShare {g : Byte} {k a : Nat} (below : a < 2 ^ (7 * k))
    (fits : k ≤ 8 ∨ k = 9 ∧ g.toNat ≤ 1) :
    BitVec.ofNat 64 a ||| groupShare g (BitVec.ofNat 4 k)
      = BitVec.ofNat 64 (a + 2 ^ (7 * k) * groupsValue [g]) := by
  have index : (BitVec.ofNat 4 k).toNat = k := Nat.mod_eq_of_lt (by omega)
  have share : (groupShare g (BitVec.ofNat 4 k)).toNat = 2 ^ (7 * k) * (g.toNat % 128) := by
    rw [groupShare_toNat g _ (by rw [index]; omega), index]
  have gathered : (BitVec.ofNat 64 a).toNat < 2 ^ (7 * k) := lt_of_le_of_lt (Nat.mod_le _ _) below
  rw [or_eq_add gathered share, groupsValue_singleton, BitVec.ofNat_add, ← share,
    BitVec.ofNat_toNat, BitVec.setWidth_eq]

/-- R131's test of `VIDX` meets the 10th group alone. -/
theorem eq_nine_of_ofNat {k : Nat} (tenth : BitVec.ofNat 4 k = 9) (inside : k ≤ 9) : k = 9 := by
  have value : k % 16 = 9 := congrArg BitVec.toNat tenth
  omega

/-- `VARINT()` on a group that has its continuation flag and is not the 10th (R130). -/
theorem varint_of_continues {g : Byte} {k a : Nat} {s : State} (gs : List Byte) (enough : 8 ≤ s.rem)
    (index : s.vidx = BitVec.ofNat 4 k) (gathered : s.vacc = BitVec.ofNat 64 a) (below : a < 2 ^ (7 * k))
    (early : k ≤ 8) (continues : 128 ≤ g.toNat) :
    varint (g :: gs) s = varint gs (nextGroup g k a s) := by
  have notTenth : ¬ (BitVec.ofNat 4 k = 9 ∧ Config.varLastMax < g) := by
    rintro ⟨tenth, _⟩
    exact absurd (eq_nine_of_ofNat tenth (by omega)) (by omega)
  have next : BitVec.ofNat 4 k + 1 = BitVec.ofNat 4 (k + 1) := (BitVec.ofNat_add k 1).symm
  rw [varint_cons g gs enough]
  simp only [index, gathered, or_groupShare below (.inl early), if_neg notTenth,
    if_pos ((contFlag_iff g).mpr continues), next]
  rfl

/-- `VARINT()` on a group that ends the element, within R74's constraints (R130, R131, R133). -/
theorem varint_of_ends {g : Byte} {k a : Nat} {s : State} (enough : 8 ≤ s.rem)
    (index : s.vidx = BitVec.ofNat 4 k) (gathered : s.vacc = BitVec.ofNat 64 a) (below : a < 2 ^ (7 * k))
    (fits : k ≤ 8 ∨ k = 9 ∧ g.toNat ≤ 1) (ends : g.toNat < 128) (needed : k = 0 ∨ g ≠ 0) :
    varint [g] s = .done (groupsRead [g] k a s) := by
  have small : ¬ (BitVec.ofNat 4 k = 9 ∧ Config.varLastMax < g) := by
    rintro ⟨tenth, large⟩
    have ninth : k = 9 := eq_nine_of_ofNat tenth (by omega)
    have above : 1 < g.toNat := large
    omega
  have canonical : ¬ (1 ≤ BitVec.ofNat 4 k ∧ g = 0) := by
    rintro ⟨later, zero⟩
    rcases needed with rfl | nonzero
    · exact absurd later (by decide)
    · exact nonzero zero
  have last : ¬ contFlag g = true := mt (contFlag_iff g).mp (Nat.not_le.mpr ends)
  rw [varint_cons g [] enough]
  simp only [index, gathered, or_groupShare below fits, State.advance_vidx, if_neg small, if_neg last,
    if_neg canonical]
  rfl

/-- `VARINT()` on canonical groups that the stream holds, from the group at `VIDX = k` on, gathers their
value above the bits below it (R78, R130). -/
theorem varint_canonical {more : Nat} {gs : List Byte} (canonical : CanonicalGroups more gs) {k a : Nat}
    {s : State} (place : k + more = 9) (needed : k = 0 ∨ gs ≠ [0]) (enough : 8 * gs.length ≤ s.rem)
    (index : s.vidx = BitVec.ofNat 4 k) (gathered : s.vacc = BitVec.ofNat 64 a) (below : a < 2 ^ (7 * k)) :
    varint gs s = .done (groupsRead gs k a s) := by
  induction canonical generalizing k a s with
  | last more g ends small =>
    have fits : k ≤ 8 ∨ k = 9 ∧ g.toNat ≤ 1 := by omega
    exact varint_of_ends enough index gathered below fits ends (by simpa using needed)
  | cons more g gs continues rest nonzero ih =>
    rw [List.length_cons] at enough
    have payload : groupsValue [g] < 128 := by
      rw [groupsValue_singleton]
      omega
    have belowNext : a + 2 ^ (7 * k) * groupsValue [g] < 2 ^ (7 * (k + 1)) := by
      rw [show 7 * (k + 1) = 7 * k + 7 by omega, pow_add]
      nlinarith [Nat.two_pow_pos (7 * k)]
    have enoughNext : 8 * gs.length ≤ (nextGroup g k a s).rem := by
      simp only [nextGroup, groupsRead, List.length_singleton]
      omega
    rw [varint_of_continues gs (by omega) index gathered below (by omega) continues,
      ih (by omega) (.inr nonzero) enoughNext rfl rfl belowNext, groupsRead_nextGroup g rest.length_pos]

/-- Settles O31: accepted groups are canonical; `VARINT()` starts from `VIDX = 0` and `VACC = 0`, and what
it has gathered is appended. -/
theorem runvarAppendsItsValue : Obligations.RunvarAppendsItsValue := by
  intro s gs accepted enough
  have canonical := (groupsAccepted_iff gs).mp accepted
  refine ⟨canonical.value_lt.2, ?_⟩
  rw [exec, execRunvar_eq, runvarReads, readTag_of_le 0 (by omega), andThen_done,
    varint_canonical (k := 0) (a := 0) canonical rfl (.inl rfl) (by simp only; omega) rfl rfl
      (by norm_num), andThen_done, finish_done]
  simp only [groupsRead, State.withRun, Nat.zero_add, Nat.mul_zero, pow_zero, Nat.one_mul, Nat.add_assoc,
    Nat.sub_sub]

end Sys2Proof.Laws
end

section
/-! The run loop (spec/42_runs.md R125, R136, R139): what one step of it appends and keeps, and the bound on
`RUNS` that every step keeps. -/

namespace Sys2Proof.Laws

open Sys2Proof.Machine Sys2Proof.Safety

/-! ### One step of the run loop -/

/-- A step that stays in the run loop has read a run and appended it (R36 row 4). -/
theorem run_of_step_in_runs {s t : State} (before : s.phase = .runs) (h : step s = .next t)
    (after : t.phase = .runs) : ∃ u r, RunRead s u ∧ t = u.withRun r := by
  cases step_cases h with
  | start _ _ hs => exact absurd (startable_iff.mp hs) (by simp [before])
  | wait _ hs => exact absurd (startable_iff.mp hs) (by simp [before])
  | raised => cases after
  | header _ hp => exact absurd (hp.symm.trans before) (by simp)
  | run _ _ _ u r read => exact ⟨u, r, read, rfl⟩
  | expandStart => cases after
  | expandRun _ hp => exact absurd (hp.symm.trans before) (by simp)
  | expandEnd => cases after

/-- Settles O36: the append is the step's only write outside the element's own registers. -/
theorem eachRunStepAppendsOneRun : Obligations.EachRunStepAppendsOneRun := by
  intro s t before _ h after
  obtain ⟨u, r, read, rfl⟩ := run_of_step_in_runs before h after
  have frame := read.frame
  exact ⟨congrArg (· ++ [r]) frame.runs, read.rem, frame.sum, read.version, read.first, frame.ridx, frame.acc,
    frame.state, frame.out, frame.status, frame.buf, frame.len, frame.cfg, frame.start, frame.draws⟩

/-! ### The bound on RUNS -/

theorem runsInv_of_header {s : State} (hp : s.phase = .header) : RunsInv s ↔ s.pos = 0 ∧ s.runs = [] := by
  simp only [RunsInv, hp]

theorem runsInv_of_runs {s : State} (hp : s.phase = .runs) : RunsInv s ↔ s.runs.length + 3 ≤ s.pos := by
  simp only [RunsInv, hp]

theorem runsInv_of_expand {s : State} (hp : s.phase = .expand) :
    RunsInv s ↔ s.runs.length + 3 ≤ s.pos ∧ s.rem = 0 := by
  simp only [RunsInv, hp]

theorem runsInv_of_done {s : State} (hp : s.phase = .done) : RunsInv s := by
  simp only [RunsInv, hp]

/-- A run read moves the cursor by a bit at least, so one more run is within the bound (R139). -/
theorem runsInv_withRun {s u : State} {r : RunLen} (inv : RunsInv s) (hp : s.phase = .runs)
    (read : RunRead s u) : RunsInv (u.withRun r) := by
  have bound := (runsInv_of_runs hp).mp inv
  have moved : s.pos < u.pos := by
    have := read.frame.sum
    have := read.rem
    omega
  have after : (u.withRun r).phase = .runs := read.frame.phase.trans hp
  rw [runsInv_of_runs after, State.withRun_runs, State.withRun_pos, read.frame.runs,
    List.length_append, List.length_singleton]
  omega

/-- Every step keeps the bound on the runs at its phase (R139). -/
theorem step_keeps_runsInv {s t : State} (inv : RunsInv s) (h : step s = .next t) : RunsInv t := by
  cases step_cases h with
  | start c => exact (runsInv_of_header rfl).mpr ⟨rfl, rfl⟩
  | wait => exact inv
  | raised => exact runsInv_of_done rfl
  | header _ hp =>
    obtain ⟨_, empty⟩ := (runsInv_of_header hp).mp inv
    refine (runsInv_of_runs rfl).mpr ?_
    simp only [empty, List.length_nil]
    omega
  | run _ hp _ u r read => exact runsInv_withRun inv hp read
  | expandStart _ hp noneLeft => exact (runsInv_of_expand rfl).mpr ⟨(runsInv_of_runs hp).mp inv, noneLeft⟩
  | expandRun _ hp => exact (runsInv_of_expand hp).mpr ((runsInv_of_expand hp).mp inv)
  | expandEnd => exact runsInv_of_done rfl

/-- While runs are decoded and expanded the two invariants together give R139's bound. -/
theorem runs_length_le {s : State} (inv : RunsInv s) (cursor : CursorInv s)
    (hp : s.phase = .runs ∨ s.phase = .expand) : s.runs.length ≤ 8 * s.len - 3 := by
  have bound : s.runs.length + 3 ≤ s.pos :=
    hp.elim (fun hp => (runsInv_of_runs hp).mp inv) (fun hp => ((runsInv_of_expand hp).mp inv).1)
  unfold CursorInv at cursor
  omega

/-- Settles O52: a step keeps both invariants. -/
theorem everyStepKeepsTheBoundOnRuns : Obligations.EveryStepKeepsTheBoundOnRuns := by
  intro s t inv cursor h
  have runs := step_keeps_runsInv inv h
  exact ⟨runs, runs_length_le runs (everyStepKeepsTheCursorInvariant s t cursor h)⟩

end Sys2Proof.Laws
end

section
/-! A tail of zero bits (spec/42_runs.md R138): ten of them are a `RUNVAR` of 0, what is left at the end is a
`RUNPAD` or an element cut short. -/

namespace Sys2Proof.Laws

open Sys2Proof.Machine Sys2Proof.Safety

/-! ### Reading a part, running in parts -/

/-- Of a read that has a value, its first bits and the others are reads of their own (R107). -/
theorem streamBits_split {m : List Host.Cell} {len p k n : Nat} {bits : List Bool}
    (read : streamBits m len p (k + n) = some bits) :
    streamBits m len p k = some (bits.take k) ∧ streamBits m len (p + k) n = some (bits.drop k) := by
  rw [streamBits_add, Option.bind_eq_some_iff] at read
  obtain ⟨a, front, read⟩ := read
  obtain ⟨b, back, rfl⟩ := Option.map_eq_some_iff.mp read
  have length : a.length = k := streamBits_length front
  exact ⟨by rw [front, List.take_left' length], by rw [back, List.drop_left' length]⟩

theorem steps_one {s t : State} (h : step s = .next t) : steps 1 s = .next t := by
  rw [steps_succ h, steps_zero]

/-- After `k` steps that end in `t`, further steps are steps from `t`. -/
theorem steps_add {k : Nat} (n : Nat) {s t : State} (h : steps k s = .next t) :
    steps (k + n) s = steps n t := by
  induction k generalizing s with
  | zero =>
    cases h
    rw [Nat.zero_add]
  | succ k ih =>
    rw [Nat.add_right_comm]
    cases hu : step s with
    | next u =>
      rw [steps_succ hu] at h ⊢
      exact ih h
    | fault f => rw [steps_succ_of_fault hu] at h; cases h
    | refused r => rw [steps_succ_of_refused hu] at h; cases h

/-! ### The tail and the states along it -/

/-- The run loop stands at an element boundary, and `n` zero bits are all that remains of the stream. -/
structure ZeroTail (s : State) (n : Nat) : Prop where
  start : s.start = none
  phase : s.phase = .runs
  rem : s.rem = n
  bits : streamBits s.buf s.len s.pos n = some (List.replicate n false)

/-- `t` is `q` runs of 0 further than `s` in the same decode. -/
structure ZeroRunsLater (q : Nat) (s t : State) : Prop where
  runs : t.runs = s.runs ++ List.replicate q 0
  out : t.out = s.out
  buf : t.buf = s.buf
  len : t.len = s.len
  cfg : t.cfg = s.cfg
  start : t.start = s.start
  draws : t.draws = s.draws

theorem ZeroRunsLater.refl (s : State) : ZeroRunsLater 0 s s := by
  constructor <;> simp

theorem ZeroRunsLater.trans {q k : Nat} {s t u : State} (h : ZeroRunsLater q s t)
    (l : ZeroRunsLater k t u) : ZeroRunsLater (q + k) s u where
  runs := by rw [l.runs, h.runs, List.append_assoc, List.replicate_append_replicate]
  out := l.out.trans h.out
  buf := l.buf.trans h.buf
  len := l.len.trans h.len
  cfg := l.cfg.trans h.cfg
  start := l.start.trans h.start
  draws := l.draws.trans h.draws

/-- An error after the runs is, for what it leaves alone, an error at the state before them (R176). -/
theorem ZeroRunsLater.endsWithError {q : Nat} {s t u : State} {e : DecodeError} (h : ZeroRunsLater q s t)
    (error : EndsWithError e t u) : EndsWithError e s u := by
  obtain ⟨phase, status, out, buf, len, cfg, start, draws⟩ := error
  exact ⟨phase, status, out.trans h.out, buf.trans h.buf, len.trans h.len, cfg.trans h.cfg,
    start.trans h.start, draws.trans h.draws⟩

/-- In a zero tail the step runs what zero bits decode to. -/
theorem ZeroTail.step_eq {s : State} {n : Nat} (h : ZeroTail s n) (remain : 0 < n) :
    step s = exec (elementOf (decodeRun (List.replicate (min n Config.longestElement) false))) s := by
  have all := h.bits
  rw [show n = min n Config.longestElement + (n - min n Config.longestElement) by omega] at all
  have seen : window Config.longestElement s = some (List.replicate (min n Config.longestElement) false) := by
    rw [window, h.rem, (streamBits_split all).1, List.take_replicate]
    congr 2
    omega
  rw [step_of_runs h.start h.phase (h.rem ▸ remain), fetchRun_of_window seen]
  rfl

/-! ### What zero bits decode to -/

/-- Ten zero bits, whatever zeros follow, are a `RUNVAR` of the one group `0x00` (R138, table row 0). -/
theorem decodeRun_ten_zeros (n : Nat) :
    decodeRun (List.replicate (10 + n) false) = .ok (.runvar [0]) := by
  rw [List.replicate_add]
  exact (StandsOn.runvar [0] _ (by decide)).decodeRun_eq

/-- Three to nine zero bits at the end of the stream are a `RUNPAD` (R75). -/
theorem decodeRun_pad_zeros {pad : Nat} (low : 1 ≤ pad) (high : pad ≤ 7) :
    decodeRun (List.replicate (2 + pad) false) = .ok (.runpad pad) := by
  rw [List.replicate_add]
  exact (StandsOn.runpad pad (runpad_wf_iff.mpr ⟨low, high⟩)).decodeRun_eq

/-! ### One step in the tail -/

theorem step_of_ten_zeros {s : State} {n : Nat} (h : ZeroTail s (10 + n)) :
    ∃ t, step s = .next t ∧ ZeroTail t n ∧ ZeroRunsLater 1 s t := by
  obtain ⟨_, appended⟩ := runvarAppendsItsValue s [0] (by decide) (by
    rw [h.rem, List.length_singleton]
    omega)
  have many : min (10 + n) Config.longestElement = 10 + min n 72 := by
    simp only [Config.longestElement, Config.varMaxBytes]
    omega
  rw [h.step_eq (by omega), many, decodeRun_ten_zeros]
  refine ⟨_, appended, ⟨h.start, h.phase, ?_, ?_⟩, ⟨rfl, rfl, rfl, rfl, rfl, rfl, rfl⟩⟩
  · simp only [h.rem, List.length_singleton]
    omega
  · simpa using (streamBits_split h.bits).2

theorem step_of_pad_zeros {s : State} {pad : Nat} (h : ZeroTail s (2 + pad)) (low : 1 ≤ pad)
    (high : pad ≤ 7) : ∃ t, step s = .next t ∧ ZeroTail t 0 ∧ ZeroRunsLater 1 s t := by
  have all : min (2 + pad) Config.longestElement = 2 + pad :=
    Nat.min_eq_left (by simp only [Config.longestElement, Config.varMaxBytes]; omega)
  rw [h.step_eq (by omega), all, decodeRun_pad_zeros low high]
  exact ⟨_, runpadAppendsZeroAndEndsTheStream s pad low high h.rem, ⟨h.start, h.phase, rfl, rfl⟩,
    ⟨rfl, rfl, rfl, rfl, rfl, rfl, rfl⟩⟩

/-- A `RUNLIT` whose tag the stream cuts off raises `UnexpectedEnd` (R127, R172). -/
theorem exec_runlit_of_short_tag (lit : BitVec 4) {s : State} (short : s.rem < 2) :
    ∃ t, exec (.runlit lit) s = .next t ∧ EndsWithError .unexpectedEnd s t := by
  obtain ⟨u, tag⟩ := readTag_of_lt 1 short
  have raised : runlitReads lit s = .raised .unexpectedEnd u := by rw [runlitReads, tag, andThen_raised]
  rw [exec, execRunlit_eq, raised, andThen_raised]
  exact endsWithError_of_raised rfl (raised ▸ runlitReads_frame lit s)

/-- A `RUNVAR` whose first group the stream cuts off raises `UnexpectedEnd` (R130, R172). -/
theorem exec_runvar_of_no_group {s : State} (tag : 2 ≤ s.rem) :
    ∃ t, exec (.runvar []) s = .next t ∧ EndsWithError .unexpectedEnd s t := by
  have frame := runvarReads_frame [] s
  rw [exec, execRunvar_eq]
  simp only [runvarReads, readTag_of_le 0 tag, andThen_done, varint, andThen_raised] at frame ⊢
  exact endsWithError_of_raised rfl frame

/-- One or two zero bits hold no element: the second tag bit or the first group is missing. -/
theorem step_of_short_tail {s : State} {n : Nat} (h : ZeroTail s n) (low : 0 < n) (high : n ≤ 2) :
    ∃ t, step s = .next t ∧ EndsWithError .unexpectedEnd s t := by
  rw [h.step_eq low]
  have remain := h.rem
  obtain rfl | rfl : n = 1 ∨ n = 2 := by omega
  · exact exec_runlit_of_short_tag 0 (by omega)
  · exact exec_runvar_of_no_group (by omega)

/-! ### The whole tail -/

/-- Each ten bits of the tail are a run of 0. -/
theorem steps_of_zero_tail {q r : Nat} {s : State} (h : ZeroTail s (10 * q + r)) :
    ∃ t, steps q s = .next t ∧ ZeroTail t r ∧ ZeroRunsLater q s t := by
  induction q generalizing s with
  | zero => exact ⟨s, rfl, by simpa using h, .refl s⟩
  | succ q ih =>
    rw [show 10 * (q + 1) + r = 10 + (10 * q + r) by omega] at h
    obtain ⟨t, first, tail, one⟩ := step_of_ten_zeros h
    obtain ⟨u, later, rest, zeros⟩ := ih tail
    refine ⟨u, by rw [steps_succ first, later], rest, ?_⟩
    rw [Nat.add_comm]
    exact one.trans zeros

/-- Settles O37: the runs of 0 by tens, and then the element that the last `r` bits are, if any. -/
theorem zeroTailDecodesByItsLength : Obligations.ZeroTailDecodesByItsLength := by
  intro s q r port phase small remain zeros
  obtain ⟨t, tens, tail, after⟩ :=
    steps_of_zero_tail (q := q) (r := r) ⟨port, phase, remain, remain ▸ zeros⟩
  split_ifs with whole short
  · exact ⟨t, tens, tail.phase, tail.rem.trans whole, after.runs⟩
  · obtain ⟨u, last, error⟩ := step_of_short_tail tail (by omega) short
    exact ⟨u, by rw [steps_add 1 tens, steps_one last], after.endsWithError error⟩
  · obtain ⟨pad, rfl⟩ := Nat.exists_eq_add_of_le (show 2 ≤ r by omega)
    obtain ⟨u, last, ended, one⟩ := step_of_pad_zeros tail (by omega) (by omega)
    exact ⟨u, by rw [steps_add 1 tens, steps_one last], ended.phase, ended.rem, (after.trans one).runs⟩

end Sys2Proof.Laws
end

section
/-! The expander (spec/43_expander.md R150 to R160): its three rows of the state machine, the set that a run
sequence describes, and what every step keeps of `OUT`, `ACC` and `STATE`. -/

namespace Sys2Proof.Laws

open Sys2Proof.Machine Sys2Proof.Safety

/-! ### The rows of the expander -/

/-- Row 6 of R36: at the end of the stream the step starts the expander. -/
theorem step_of_stream_end {s : State} (hc : s.start = none) (hp : s.phase = .runs) (hr : s.rem = 0) :
    step s = .next (expandStart s) := by
  have noneRemain : bitsRemain s = false := by simp [bitsRemain, hr]
  simp only [step, machineStep, hc, decoderStep, hp, noneRemain]
  rfl

theorem step_of_expand {s : State} (hc : s.start = none) (hp : s.phase = .expand) :
    step s = expandNext s := by
  simp only [step, machineStep, hc, decoderStep, hp]

/-- Row 7 of R36, where `POS_BITS` holds the new `ACC`. -/
theorem expandNext_of_fits {s : State} {r : RunLen} (run : s.runs[s.ridx]? = some r)
    (fits : s.cfg.holdsPosition (s.acc + r.toNat) = true) : expandNext s = .next (expandRun r s) := by
  simp only [expandNext, run, fits, if_true]

/-- Row 7 of R36, where `POS_BITS` does not hold the new `ACC` (R159). -/
theorem expandNext_of_overflow {s : State} {r : RunLen} (run : s.runs[s.ridx]? = some r)
    (overflow : s.cfg.holdsPosition (s.acc + r.toNat) = false) :
    expandNext s = .refused .positionOverflow := by
  simp only [expandNext, run, overflow]
  rfl

/-- Row 8 of R36: every run is expanded. -/
theorem expandNext_of_end {s : State} (all : s.runs[s.ridx]? = none) :
    expandNext s = .next (expandEnd s) := by
  simp only [expandNext, all]

theorem emitted_eq (state : Bit) (acc r : Nat) :
    emitted state acc r = if state = 1 then List.range' acc r else [] := by
  simp [emitted, isSet]

/-- The effect of R151 to R154, written out. -/
theorem expandRun_eq (r : RunLen) (s : State) :
    expandRun r s = { s with
      out := s.out ++ (if s.state = 1 then List.range' s.acc r.toNat else [])
      acc := s.acc + r.toNat
      state := 1 - s.state
      ridx := s.ridx + 1 } := by
  rw [expandRun, emitted_eq, flipState]

/-- Settles O38: `EXPSTART` is row 6's whole effect. -/
theorem expanderStartsAtTheEndOfTheStream : Obligations.ExpanderStartsAtTheEndOfTheStream := by
  intro s port phase ended
  rw [step_of_stream_end port phase ended, expandStart]

/-! ### What a finite POS_BITS holds -/

theorem holdsPosition_of_unbounded {c : Config} (h : c.posBits = none) (total : Nat) :
    c.holdsPosition total = true := by
  simp only [Config.holdsPosition, h]

theorem holdsPosition_of_width {c : Config} {w : Nat} (h : c.posBits = some w) (total : Nat) :
    c.holdsPosition total = true ↔ total < 2 ^ w := by
  simp only [Config.holdsPosition, h, decide_eq_true_iff]

/-- Every counter holds 0, where the expander starts (R150). -/
theorem holdsPosition_zero (c : Config) : c.holdsPosition 0 = true := by
  cases h : c.posBits with
  | none => exact holdsPosition_of_unbounded h 0
  | some w => exact (holdsPosition_of_width h 0).mpr (by positivity)

/-- A counter that holds a position holds every smaller one. -/
theorem holdsPosition_mono {c : Config} {a b : Nat} (le : a ≤ b) (h : c.holdsPosition b = true) :
    c.holdsPosition a = true := by
  cases hw : c.posBits with
  | none => exact holdsPosition_of_unbounded hw a
  | some w =>
    rw [holdsPosition_of_width hw] at h ⊢
    omega

/-- Settles O39: an unbounded counter holds every `ACC`, so row 7 is taken. -/
theorem expansionStepEmitsOneRun : Obligations.ExpansionStepEmitsOneRun := by
  intro s r port phase run unbounded
  rw [step_of_expand port phase, expandNext_of_fits run (holdsPosition_of_unbounded unbounded _),
    expandRun_eq]

/-- Settles O40: a run of 0 has no values to emit and adds nothing to `ACC`. -/
theorem zeroRunOnlyFlipsState : Obligations.ZeroRunOnlyFlipsState := by
  intro s port phase run fits
  rw [step_of_expand port phase, expandNext_of_fits run fits, expandRun_eq]
  simp

/-- Settles O43: the two answers of row 7, told apart by the counter's bound. -/
theorem positionOverflowIsRefused : Obligations.PositionOverflowIsRefused := by
  intro s r w port phase run width
  have bound := holdsPosition_of_width width (s.acc + r.toNat)
  rw [step_of_expand port phase, ← expandRun_eq, ← bound, ← Nat.not_lt, ← bound]
  cases fits : s.cfg.holdsPosition (s.acc + r.toNat) with
  | true => simp [expandNext_of_fits run fits]
  | false => simp [expandNext_of_overflow run fits]

/-- Settles O42: no run is left at `RIDX`, so row 8 is taken, and `OUT` with `OK` is what the host reads. -/
theorem expanderEndsWithOk : Obligations.ExpanderEndsWithOk := by
  intro s port phase all
  have noRun : s.runs[s.ridx]? = none := List.getElem?_eq_none (Nat.le_of_eq all.symm)
  refine ⟨expandEnd s, ?_, rfl, rfl, rfl, rfl, rfl, rfl, rfl, rfl, rfl⟩
  rw [step_of_expand port phase, expandNext_of_end noRun]

/-! ### The set that a run sequence describes -/

/-- Expanding two sequences one after the other: the second starts at the sum of the first, with the flag
flipped once for each of its runs (R153, R154). -/
theorem refExpand_append (acc : Nat) (set : Bool) (xs ys : List Nat) :
    refExpand acc set (xs ++ ys)
      = refExpand acc set xs ++ refExpand (acc + xs.sum) (set ^^ xs.length.bodd) ys := by
  induction xs generalizing acc set with
  | nil => simp [refExpand]
  | cons r rs ih =>
    simp only [List.cons_append, refExpand, ih, List.sum_cons, List.length_cons, Nat.bodd_succ,
      List.append_assoc, Nat.add_assoc]
    simp

/-- A run of 0 gives its neighbours one flag, so they emit adjacent ranges (R157). -/
theorem refExpand_zero_between (acc : Nat) (set : Bool) (a b : Nat) (after : List Nat) :
    refExpand acc set (a :: 0 :: b :: after) = refExpand acc set ((a + b) :: after) := by
  cases set <;> simp [refExpand, Nat.add_assoc, List.range'_append_1, ← List.append_assoc]

theorem refExpand_zero_last (acc : Nat) (set : Bool) : refExpand acc set [0] = [] := by
  simp [refExpand]

/-- Settles O41: what stands before the run of 0 is expanded alike, and what follows sees the same position
and flag. -/
theorem zeroRunJoinsItsNeighbours : Obligations.ZeroRunJoinsItsNeighbours := by
  intro acc set before after a b
  constructor
  · rw [List.append_assoc, List.append_assoc, refExpand_append acc set before ([a, 0, b] ++ after),
      refExpand_append acc set before ([a + b] ++ after)]
    exact congrArg _ (refExpand_zero_between _ _ a b after)
  · rw [refExpand_append, refExpand_zero_last, List.append_nil]

theorem toNat_bit (f : Bit) : f.toNat = (decide (f = 1)).toNat := by
  revert f; decide

/-- The flag of run `k`: `FIRST` flipped `k` times is `(FIRST + k) mod 2` (R154, R160). -/
theorem setFlag_eq (f : Bit) (k : Nat) :
    (decide (f = 1) ^^ k.bodd) = ((f.toNat + k) % 2 == 1) := by
  rw [toNat_bit, Nat.add_mod, Nat.mod_two_of_bodd k]
  cases decide (f = 1) <;> cases k.bodd <;> rfl

/-- The expansion of the runs from number `k` on has as many values as its set runs together (R160). -/
theorem refExpand_length (f : Bit) (rs : List Nat) (acc k : Nat) :
    (refExpand acc (decide (f = 1) ^^ k.bodd) rs).length
      = (((rs.zipIdx k).filter fun rk => (f.toNat + rk.2) % 2 == 1).map Prod.fst).sum := by
  induction rs generalizing acc k with
  | nil => rfl
  | cons r rs ih =>
    have later := ih (acc + r) (k + 1)
    rw [Nat.bodd_succ, Bool.xor_not] at later
    rw [refExpand, List.length_append, later, List.zipIdx_cons, List.filter_cons, setFlag_eq]
    split_ifs <;> simp

/-! ### OUT is strictly increasing -/

theorem outInv_of_header {s : State} (hp : s.phase = .header) : OutInv s ↔ s.out = [] := by
  simp only [OutInv, hp]

theorem outInv_of_runs {s : State} (hp : s.phase = .runs) : OutInv s ↔ s.out = [] := by
  simp only [OutInv, hp]

theorem outInv_of_expand {s : State} (hp : s.phase = .expand) :
    OutInv s ↔ Increasing s.out ∧ ∀ x ∈ s.out, x < s.acc := by
  simp only [OutInv, hp]

theorem outInv_of_done {s : State} (hp : s.phase = .done) :
    OutInv s ↔ Increasing s.out ∧ ∀ e, s.status = .error e → s.out = [] := by
  simp only [OutInv, hp]

theorem increasing_nil : Increasing [] := List.Pairwise.nil

/-- Until the expander runs, `OUT` is empty. -/
theorem out_nil_of_outInv {s : State} (inv : OutInv s) (hp : s.phase = .header ∨ s.phase = .runs) :
    s.out = [] :=
  hp.elim (fun hp => (outInv_of_header hp).mp inv) (fun hp => (outInv_of_runs hp).mp inv)

/-- What a run emits lies from `ACC` to the next `ACC`, in increasing order (R151, R152). -/
theorem emitted_increasing (state : Bit) (acc r : Nat) :
    Increasing (emitted state acc r) ∧ ∀ x ∈ emitted state acc r, acc ≤ x ∧ x < acc + r := by
  rw [emitted_eq]
  split_ifs
  · exact ⟨List.pairwise_lt_range', fun x hx => List.mem_range'_1.mp hx⟩
  · exact ⟨increasing_nil, by simp⟩

/-- Emitting a run keeps `OUT` increasing and below `ACC`: all before it lies below the old `ACC` (R156). -/
theorem outInv_expandRun {s : State} (r : RunLen) (inv : OutInv s) (hp : s.phase = .expand) :
    OutInv (expandRun r s) := by
  obtain ⟨increasing, below⟩ := (outInv_of_expand hp).mp inv
  obtain ⟨increasingRun, bounds⟩ := emitted_increasing s.state s.acc r.toNat
  rw [outInv_of_expand (show (expandRun r s).phase = .expand from hp), expandRun_out, expandRun_acc]
  refine ⟨List.pairwise_append.mpr ⟨increasing, increasingRun, fun x hx y hy => ?_⟩, fun x hx => ?_⟩
  · exact lt_of_lt_of_le (below x hx) (bounds y hy).1
  · rcases List.mem_append.mp hx with old | new
    · exact Nat.lt_add_right _ (below x old)
    · exact (bounds x new).2

/-- Settles O53: only START and a run's expansion write `OUT`, and an error falls before the expander
runs. -/
theorem everyStepKeepsOutIncreasing : Obligations.EveryStepKeepsOutIncreasing := by
  intro s t inv h
  cases step_cases h with
  | start => exact (outInv_of_header rfl).mpr rfl
  | wait => exact inv
  | raised _ hp e u frame =>
    have empty : u.out = [] := frame.out.trans (out_nil_of_outInv inv hp)
    exact (outInv_of_done rfl).mpr ⟨empty ▸ increasing_nil, fun _ _ => empty⟩
  | header _ hp => exact (outInv_of_runs rfl).mpr ((outInv_of_header hp).mp inv)
  | run _ hp _ u r read =>
    refine (outInv_of_runs (read.frame.phase.trans hp)).mpr ?_
    exact read.frame.out.trans ((outInv_of_runs hp).mp inv)
  | expandStart _ hp =>
    have empty := (outInv_of_runs hp).mp inv
    refine (outInv_of_expand rfl).mpr ?_
    rw [expandStart_out, empty]
    exact ⟨increasing_nil, by simp⟩
  | expandRun _ hp r => exact outInv_expandRun r inv hp
  | expandEnd _ hp => exact (outInv_of_done rfl).mpr ⟨((outInv_of_expand hp).mp inv).1, by simp⟩

/-! ### The expander's progress -/

theorem expandInv_of_header {s : State} (hp : s.phase = .header) : ExpandInv s ↔ s.out = [] := by
  simp only [ExpandInv, hp]

theorem expandInv_of_runs {s : State} (hp : s.phase = .runs) : ExpandInv s ↔ s.out = [] := by
  simp only [ExpandInv, hp]

theorem expandInv_of_expand {s : State} (hp : s.phase = .expand) :
    ExpandInv s ↔ s.ridx ≤ s.runs.length
      ∧ s.acc = (expandedRuns s).sum
      ∧ (s.state = 1 ↔ (s.first.toNat + s.ridx) % 2 = 1)
      ∧ s.out = refExpand 0 (decide (s.first = 1)) (expandedRuns s) := by
  simp only [ExpandInv, hp]

theorem expandInv_of_done {s : State} (hp : s.phase = .done) : ExpandInv s := by
  simp only [ExpandInv, hp]

/-- Each expansion step adds its run to the runs done (R30). -/
theorem expandedRuns_expandRun {s : State} {r : RunLen} (run : s.runs[s.ridx]? = some r) :
    expandedRuns (expandRun r s) = expandedRuns s ++ [r.toNat] := by
  simp [expandedRuns, List.take_add_one, run]

theorem expandedRuns_length {s : State} (le : s.ridx ≤ s.runs.length) :
    (expandedRuns s).length = s.ridx := by
  simp [expandedRuns, le]

theorem flipState_eq_one_iff (b : Bit) : flipState b = 1 ↔ ¬ b = 1 := by
  revert b; decide

/-- `EXPSTART` begins with no run done (R150). -/
theorem expandInv_expandStart {s : State} (inv : ExpandInv s) (hp : s.phase = .runs) :
    ExpandInv (expandStart s) := by
  have empty := (expandInv_of_runs hp).mp inv
  have bit : ∀ f : Bit, f = 1 ↔ f.toNat % 2 = 1 := by decide
  refine (expandInv_of_expand rfl).mpr ⟨Nat.zero_le _, rfl, bit s.first, empty⟩

/-- An expansion step goes on by one run: the flag `STATE` decides what the reference emits for it
(R151 to R154). -/
theorem expandInv_expandRun {s : State} {r : RunLen} (inv : ExpandInv s) (hp : s.phase = .expand)
    (run : s.runs[s.ridx]? = some r) : ExpandInv (expandRun r s) := by
  obtain ⟨inside, acc, state, out⟩ := (expandInv_of_expand hp).mp inv
  have next : s.ridx < s.runs.length := (List.getElem?_eq_some_iff.mp run).1
  have flag : (decide (s.first = 1) ^^ s.ridx.bodd) = true ↔ s.state = 1 := by
    rw [setFlag_eq, beq_iff_eq, state]
  refine (expandInv_of_expand (show (expandRun r s).phase = .expand from hp)).mpr ⟨next, ?_, ?_, ?_⟩
  · rw [expandedRuns_expandRun run, List.sum_append, ← acc]
    simp
  · rw [expandRun_state, flipState_eq_one_iff, state, expandRun_first, expandRun_ridx]
    omega
  · rw [expandRun_first, expandedRuns_expandRun run, refExpand_append, expandedRuns_length inside, ← acc,
      ← out, expandRun_out, emitted_eq]
    simp only [refExpand, flag, Nat.zero_add, List.append_nil]

/-- Settles O54: `EXPSTART` begins with no run done, and each expansion step does the next one. -/
theorem everyStepKeepsTheExpandersProgress : Obligations.EveryStepKeepsTheExpandersProgress := by
  intro s t inv h
  cases step_cases h with
  | start => exact (expandInv_of_header rfl).mpr rfl
  | wait => exact inv
  | raised => exact expandInv_of_done rfl
  | header _ hp => exact (expandInv_of_runs rfl).mpr ((expandInv_of_header hp).mp inv)
  | run _ hp _ u r read =>
    have after : (u.withRun r).phase = .runs := read.frame.phase.trans hp
    refine (expandInv_of_runs after).mpr ?_
    exact read.frame.out.trans ((expandInv_of_runs hp).mp inv)
  | expandStart _ hp => exact expandInv_expandStart inv hp
  | expandRun _ hp r run => exact expandInv_expandRun inv hp run
  | expandEnd => exact expandInv_of_done rfl

/-- A step from the expander into `DONE` is its end, with every run done (R36 row 8). -/
theorem expandEnd_of_step {s t : State} (before : s.phase = .expand) (h : step s = .next t)
    (after : t.phase = .done) : s.runs[s.ridx]? = none ∧ t = expandEnd s := by
  cases step_cases h with
  | start _ _ hs => exact absurd (startable_iff.mp hs) (by simp [before])
  | wait _ hs => exact absurd (startable_iff.mp hs) (by simp [before])
  | raised _ hp => exact absurd hp (by simp [before])
  | header _ hp => exact absurd (hp.symm.trans before) (by simp)
  | run _ hp => exact absurd (hp.symm.trans before) (by simp)
  | expandStart _ hp => exact absurd (hp.symm.trans before) (by simp)
  | expandRun _ hp => exact absurd (hp.symm.trans after) (by simp)
  | expandEnd _ _ all => exact ⟨all, rfl⟩

/-- Settles O55: at the end `OUT` is the expansion of all the runs, and its length is that of its set
runs. -/
theorem resultLengthIsTheSumOfSetRuns : Obligations.ResultLengthIsTheSumOfSetRuns := by
  intro s t inv before h after
  obtain ⟨all, rfl⟩ := expandEnd_of_step before h after
  obtain ⟨_, _, _, out⟩ := (expandInv_of_expand before).mp inv
  have done : expandedRuns s = s.runs.map BitVec.toNat := by
    rw [expandedRuns, List.take_of_length_le (List.getElem?_eq_none_iff.mp all)]
  have length := refExpand_length s.first (s.runs.map BitVec.toNat) 0 0
  rw [Nat.bodd_zero, Bool.xor_false] at length
  rw [expandEnd_out, out, done, length]

end Sys2Proof.Laws
end

section
/-! One element, decoded and executed by the machine, and the same element read field by field by the reference
decode (spec/42_runs.md R125, R130; spec/43_expander.md R158): where the same bits remain, both append the same
run after the same number of bits, or both raise the same error. -/

namespace Sys2Proof.Laws

open Sys2Proof.Machine Sys2Proof.Safety

/-! ### The reads and the branches of the reference, those that raise among them -/

theorem refNextBits_of_lt {N n pos rem : Nat} (short : rem < n) : refNextBits N n pos rem = none :=
  if_neg (Nat.not_le.mpr short)

theorem refVarint_of_cut {N left vacc pos rem : Nat} (cut : refNextBits N 8 pos rem = none) :
    refVarint N (left + 1) vacc pos rem = .error .unexpectedEnd := by
  rw [refVarint, cut]

/-- The 10th group is above 1 (R131). -/
theorem refVarint_of_tooLong {N vacc pos rem g : Nat} (read : refNextBits N 8 pos rem = some g)
    (large : 1 < g) : refVarint N 1 vacc pos rem = .error .runTooLong := by
  rw [refVarint, read]
  simp [large]

/-- A group with its continuation flag: what follows decides, 8 bits further on (R130). -/
theorem refVarint_of_more {N left vacc pos rem g : Nat} (read : refNextBits N 8 pos rem = some g)
    (early : 9 - left ≠ 9) (continues : 128 ≤ g) :
    refVarint N (left + 1) vacc pos rem
      = (refVarint N left (vacc + g % 128 * 2 ^ (7 * (9 - left))) (pos + 8) (rem - 8)).map
          fun x => (x.1, x.2 + 8) := by
  rw [refVarint, read]
  simp only [early, false_and, if_false, if_pos continues]
  split <;> next h => rw [h]; rfl

/-- A terminating `0x00` after another group (R133). -/
theorem refVarint_of_zero {N left vacc pos rem : Nat} (read : refNextBits N 8 pos rem = some 0)
    (later : 1 ≤ 9 - left) : refVarint N (left + 1) vacc pos rem = .error .invalidRun := by
  rw [refVarint, read]
  simp [later]

theorem refRunStep_of_cut_tag {N pos rem : Nat} (tag1 : refNextBits N 1 pos rem = some 0)
    (cut : refNextBits N 1 (pos + 1) (rem - 1) = none) :
    refRunStep N pos rem = .error .unexpectedEnd := by
  simp only [refRunStep, tag1, cut]

theorem refRunStep_of_cut_literal {N pos rem : Nat} (tag1 : refNextBits N 1 pos rem = some 0)
    (tag2 : refNextBits N 1 (pos + 1) (rem - 1) = some 1)
    (cut : refNextBits N 4 (pos + 2) (rem - 2) = none) :
    refRunStep N pos rem = .error .unexpectedEnd := by
  simp only [refRunStep, tag1, tag2, cut]

/-- `RUNSTEP` after the tag `0 0` where a zero tail is left (R132). -/
theorem refRunStep_of_pad {N pos rem : Nat} (tag1 : refNextBits N 1 pos rem = some 0)
    (tag2 : refNextBits N 1 (pos + 1) (rem - 1) = some 0)
    (tail : 1 ≤ rem - 2 ∧ rem - 2 ≤ 7 ∧ N / 2 ^ (pos + 2) % 2 ^ (rem - 2) = 0) :
    refRunStep N pos rem = .ok (0, rem) := by
  simp only [refRunStep, tag1, tag2, if_pos tail]

/-- `RUNSTEP` after the tag `0 0` where no zero tail is left: `VARINT()` decides (R130). -/
theorem refRunStep_of_varint {N pos rem : Nat} (tag1 : refNextBits N 1 pos rem = some 0)
    (tag2 : refNextBits N 1 (pos + 1) (rem - 1) = some 0)
    (noTail : ¬ (1 ≤ rem - 2 ∧ rem - 2 ≤ 7 ∧ N / 2 ^ (pos + 2) % 2 ^ (rem - 2) = 0)) :
    refRunStep N pos rem
      = (refVarint N 10 0 (pos + 2) (rem - 2)).map fun x => (x.1, x.2 + 2) := by
  simp only [refRunStep, tag1, tag2, if_neg noTail]
  split <;> next h => rw [h]; rfl

/-! ### What the decoder makes of the bits -/

theorem readGroups_of_short {bits : List Bool} (short : bits.length < 8) (room : Nat) :
    readGroups (room + 1) bits = ([], false) := by
  match bits with
  | [] | [_] | [_, _] | [_, _, _] | [_, _, _, _] | [_, _, _, _, _] | [_, _, _, _, _, _]
  | [_, _, _, _, _, _, _] => rfl
  | _ :: _ :: _ :: _ :: _ :: _ :: _ :: _ :: rest => simp at short; omega

/-- The groups read: the first one, and if its continuation flag is set those after it (R79). -/
theorem readGroups_cons (room : Nat) (g : Byte) (rest : List Bool) :
    (readGroups (room + 1) (bitsOfField g ++ rest)).1
      = if contFlag g then g :: (readGroups room rest).1 else [g] := by
  obtain ⟨b0, b1, b2, b3, b4, b5, b6, b7, bits, byte⟩ := bitsOfField_byte g rest
  rw [bits, readGroups]
  simp only [byte]
  split_ifs <;> rfl

/-- Bits are too few for a group, or one stands in front. -/
theorem short_or_byte (bits : List Bool) :
    bits.length < 8 ∨ ∃ (g : Byte) (rest : List Bool), bits = bitsOfField g ++ rest := by
  rcases Nat.lt_or_ge bits.length 8 with short | enough
  · exact .inl short
  · have front : (bits.take 8).length = 8 := List.length_take_of_le enough
    refine .inr ⟨fieldOf 8 (bits.take 8), bits.drop 8, ?_⟩
    have field := bitsOfField_fieldOf (bits.take 8)
    rw [front] at field
    rw [field, List.take_append_drop]

/-- No more bits are looked at than the groups that may be read have (R79). -/
theorem readGroups_take (room : Nat) (bits : List Bool) :
    readGroups room (bits.take (8 * room)) = readGroups room bits := by
  induction room generalizing bits with
  | zero => rfl
  | succ room ih =>
    match bits with
    | b0 :: b1 :: b2 :: b3 :: b4 :: b5 :: b6 :: b7 :: rest =>
      simp only [Nat.mul_add, Nat.mul_one, List.take_succ_cons, readGroups, ih]
    | [] | [_] | [_, _] | [_, _, _] | [_, _, _, _] | [_, _, _, _, _] | [_, _, _, _, _, _]
    | [_, _, _, _, _, _, _] =>
      rw [List.take_of_length_le (by simp only [List.length_cons, List.length_nil]; omega)]

/-- The window of the longest element shows the decoder as much as the whole stream (R74, R76). -/
theorem decodeRun_window (bits : List Bool) :
    decodeRun (bits.take Config.longestElement) = decodeRun bits := by
  rcases Nat.le_total bits.length Config.longestElement with short | long
  · rw [List.take_of_length_le short]
  · match bits with
    | true :: _ | false :: true :: _ :: _ :: _ :: _ :: _ => rfl
    | false :: false :: rest =>
      have window : (false :: false :: rest).take Config.longestElement
          = false :: false :: rest.take (8 * Config.varMaxBytes) := rfl
      have many : 8 * Config.varMaxBytes ≤ rest.length := by
        simp only [Config.longestElement, List.length_cons] at long
        omega
      have front : (rest.take (8 * Config.varMaxBytes)).length = 8 * Config.varMaxBytes :=
        List.length_take_of_le many
      rw [window, decodeRun_of_not_tailZero (not_tailZero_of_long (le_trans (by decide) front.ge)),
        decodeRun_of_not_tailZero (not_tailZero_of_long (le_trans (by decide) many)), readGroups_take]
    | [] | [_] | [false, true] | [false, true, _] | [false, true, _, _] | [false, true, _, _, _] =>
      simp [Config.longestElement, Config.varMaxBytes] at long

/-- After the tag `0 1` the element is a `RUNLIT`, whole or cut short (R73, R80). -/
theorem elementOf_of_literal_tag (rest : List Bool) :
    ∃ lit, elementOf (decodeRun (false :: true :: rest)) = .runlit lit
      ∧ (4 ≤ rest.length → ∃ after, rest = bitsOfField lit ++ after) := by
  match rest with
  | l0 :: l1 :: l2 :: l3 :: after =>
    have field := bitsOfField_fieldOf [l0, l1, l2, l3]
    refine ⟨fieldOf 4 [l0, l1, l2, l3], rfl, fun _ => ⟨after, ?_⟩⟩
    simp only [List.length_cons, List.length_nil] at field
    rw [field]
    rfl
  | [] | [_] | [_, _] | [_, _, _] => exact ⟨0, rfl, by simp⟩

/-- After the tag `0 0`, where no zero tail is left, the element is a `RUNVAR` of the groups read, whole or
cut short (R74, R80). -/
theorem elementOf_of_groups_tag {rest : List Bool} (noTail : ¬ tailZero rest = true) :
    elementOf (decodeRun (false :: false :: rest)) = .runvar (readGroups Config.varMaxBytes rest).1 := by
  rw [decodeRun_of_not_tailZero noTail]
  split_ifs <;> rfl

/-- The test of the reference after the tag `0 0` is `TAILZERO()` (R105). -/
theorem Remains.tailZero_iff {N pos rem : Nat} {rest : List Bool} (h : Remains N pos rem rest) :
    tailZero rest = true ↔ 1 ≤ rem ∧ rem ≤ 7 ∧ N / 2 ^ pos % 2 ^ rem = 0 := by
  rw [Sys2Proof.tailZero_iff, h.value, h.length, Nat.mod_eq_of_lt (natOfBits_lt rest), natOfBits_eq_zero_iff]

theorem Remains.byte_le {N pos rem : Nat} {g : Byte} {rest : List Bool}
    (h : Remains N pos rem (bitsOfField g ++ rest)) : 8 ≤ rem := by
  rw [h.length, List.length_append, bitsOfField_length]
  omega

/-! ### VARINT -/

/-- The machine's `VARINT()` answers from `s` as the reference does: the same value after the same number of
bits, or the same error. -/
inductive VarintAgrees (s : State) : Except DecodeError (Nat × Nat) → Attempt → Prop
  | done (r n : Nat) (t : State) (value : t.vacc = BitVec.ofNat 64 r) (fits : r < 2 ^ 64)
      (moved : t.pos = s.pos + n) : VarintAgrees s (.ok (r, n)) (.done t)
  | raised (e : DecodeError) (t : State) : VarintAgrees s (.error e) (.raised e t)

/-- An agreement from a later state on is one from the state before, with the bits between them added. -/
theorem VarintAgrees.after {s u : State} {m : Nat} {ref : Except DecodeError (Nat × Nat)} {a : Attempt}
    (h : VarintAgrees u ref a) (between : u.pos = s.pos + m) :
    VarintAgrees s (ref.map fun x => (x.1, x.2 + m)) a := by
  cases h with
  | done r n t value fits moved => exact .done r (n + m) t value fits (by omega)
  | raised e t => exact .raised e t

/-- The machine's `VARINT()` where the 10th group is above 1 (R131). -/
theorem varint_of_tooLong {g : Byte} {s : State} (gs : List Byte) (enough : 8 ≤ s.rem)
    (index : s.vidx = BitVec.ofNat 4 9) (large : 1 < g.toNat) :
    ∃ t, varint (g :: gs) s = .raised .runTooLong t := by
  have above : s.vidx = 9 ∧ Config.varLastMax < g := ⟨index, large⟩
  rw [varint_cons g gs enough]
  exact ⟨_, if_pos above⟩

/-- The machine's `VARINT()` where `0x00` ends it after another group (R133). -/
theorem varint_of_zero {k : Nat} {s : State} (enough : 8 ≤ s.rem) (index : s.vidx = BitVec.ofNat 4 k)
    (later : 1 ≤ k) (inside : k ≤ 9) : ∃ t, varint [0] s = .raised .invalidRun t := by
  have small : ¬ (s.vidx = 9 ∧ Config.varLastMax < 0) := fun ⟨_, large⟩ => absurd large (by decide)
  have ends : ¬ contFlag 0 = true := by decide
  have zero : 1 ≤ s.vidx ∧ (0 : Byte) = 0 := by
    have value : (BitVec.ofNat 4 k).toNat = k := Nat.mod_eq_of_lt (by omega)
    exact ⟨by rw [index, BitVec.le_def, value]; exact later, rfl⟩
  rw [varint_cons 0 [] enough]
  exact ⟨_, (if_neg small).trans ((if_neg ends).trans (if_pos zero))⟩

/-- With a group that R131 admits the run length stays in 64 bits (R134). -/
theorem gathered_lt {g k a : Nat} (below : a < 2 ^ (7 * k)) (small : g < 128)
    (fits : k ≤ 8 ∨ k = 9 ∧ g ≤ 1) : a + 2 ^ (7 * k) * g < 2 ^ 64 := by
  rcases fits with early | ⟨rfl, last⟩
  · calc a + 2 ^ (7 * k) * g < 2 ^ (7 * k) * 128 := by nlinarith
      _ = 2 ^ (7 * k + 7) := by rw [pow_add]; rfl
      _ ≤ 2 ^ 64 := Nat.pow_le_pow_right (by norm_num) (by omega)
  · omega

/-- The two `VARINT()`s agree where no group is left (R172). -/
theorem varint_agrees_of_short {N left a : Nat} {bits : List Bool} {s : State}
    (remains : Remains N s.pos s.rem bits) (short : bits.length < 8) :
    VarintAgrees s (refVarint N (left + 1) a s.pos s.rem) (varint (readGroups (left + 1) bits).1 s) := by
  have cut : refNextBits N 8 s.pos s.rem = none := refNextBits_of_lt (by rw [remains.length]; exact short)
  rw [refVarint_of_cut cut, readGroups_of_short short]
  exact .raised _ s

/-- The two `VARINT()`s agree on a group that ends the element, canonical or not (R130, R133). -/
theorem varint_agrees_of_ends {N left k a : Nat} {g : Byte} {rest : List Bool} {s : State}
    (place : k + left = 9) (remains : Remains N s.pos s.rem (bitsOfField g ++ rest))
    (index : s.vidx = BitVec.ofNat 4 k) (gathered : s.vacc = BitVec.ofNat 64 a) (below : a < 2 ^ (7 * k))
    (ends : g.toNat < 128) (fits : k ≤ 8 ∨ k = 9 ∧ g.toNat ≤ 1) :
    VarintAgrees s (refVarint N (left + 1) a s.pos s.rem)
      (varint (readGroups (left + 1) (bitsOfField g ++ rest)).1 s) := by
  obtain ⟨read, _⟩ := remains.next_field
  have enough : 8 ≤ s.rem := remains.byte_le
  have last : ¬ contFlag g = true := mt (contFlag_iff g).mp (Nat.not_le.mpr ends)
  have small : ¬ (9 - left = 9 ∧ 1 < g.toNat) := by omega
  rw [readGroups_cons, if_neg last]
  by_cases zero : 1 ≤ k ∧ g = 0
  · obtain ⟨later, rfl⟩ := zero
    obtain ⟨t, raised⟩ := varint_of_zero enough index later (by omega)
    rw [raised, refVarint_of_zero read (by omega)]
    exact .raised _ t
  · have needed : k = 0 ∨ g ≠ 0 := by
      rw [not_and_or] at zero
      exact zero.imp_left (by omega)
    have canonical : ¬ (1 ≤ 9 - left ∧ g.toNat = 0) := by
      rintro ⟨later, isZero⟩
      exact zero ⟨by omega, BitVec.eq_of_toNat_eq isZero⟩
    have share : g.toNat % 128 * 2 ^ (7 * (9 - left)) = 2 ^ (7 * k) * groupsValue [g] := by
      rw [groupsValue_singleton, show 9 - left = k by omega, Nat.mul_comm]
    have payload : groupsValue [g] = g.toNat := by rw [groupsValue_singleton, Nat.mod_eq_of_lt ends]
    rw [varint_of_ends enough index gathered below fits ends needed,
      refVarint_of_ends read small ends canonical, share]
    exact .done _ _ _ rfl (by rw [payload]; exact gathered_lt below ends fits) rfl

/-- `VARINT()` of the machine, on the groups that the decoder reads from the bits, and of the reference agree
from the group at `VIDX = k` on, where `a` has been gathered before it (R130, R131, R133). -/
theorem varint_agrees {N left k a : Nat} {bits : List Bool} {s : State} (place : k + left = 9)
    (remains : Remains N s.pos s.rem bits) (index : s.vidx = BitVec.ofNat 4 k)
    (gathered : s.vacc = BitVec.ofNat 64 a) (below : a < 2 ^ (7 * k)) :
    VarintAgrees s (refVarint N (left + 1) a s.pos s.rem) (varint (readGroups (left + 1) bits).1 s) := by
  induction left generalizing k a bits s with
  | zero =>
    obtain rfl : k = 9 := place
    rcases short_or_byte bits with short | ⟨g, rest, rfl⟩
    · exact varint_agrees_of_short remains short
    · by_cases large : 1 < g.toNat
      · obtain ⟨read, _⟩ := remains.next_field
        have enough : 8 ≤ s.rem := remains.byte_le
        have groups : ∃ gs, (readGroups 1 (bitsOfField g ++ rest)).1 = g :: gs := by
          rw [readGroups_cons]
          split_ifs <;> exact ⟨_, rfl⟩
        obtain ⟨gs, groups⟩ := groups
        obtain ⟨t, raised⟩ := varint_of_tooLong gs enough index large
        rw [groups, raised, refVarint_of_tooLong read large]
        exact .raised _ t
      · exact varint_agrees_of_ends rfl remains index gathered below (by omega) (by omega)
  | succ left ih =>
    rcases short_or_byte bits with short | ⟨g, rest, rfl⟩
    · exact varint_agrees_of_short remains short
    · by_cases continues : 128 ≤ g.toNat
      · obtain ⟨read, after⟩ := remains.next_field
        have enough : 8 ≤ s.rem := remains.byte_le
        have share : g.toNat % 128 * 2 ^ (7 * (9 - (left + 1))) = 2 ^ (7 * k) * groupsValue [g] := by
          rw [groupsValue_singleton, show 9 - (left + 1) = k by omega, Nat.mul_comm]
        have payload : groupsValue [g] < 128 := by
          rw [groupsValue_singleton]
          omega
        have belowNext : a + 2 ^ (7 * k) * groupsValue [g] < 2 ^ (7 * (k + 1)) := by
          rw [show 7 * (k + 1) = 7 * k + 7 by omega, pow_add]
          nlinarith [Nat.two_pow_pos (7 * k)]
        have later := ih (s := nextGroup g k a s) (show k + 1 + left = 9 by omega) after rfl rfl belowNext
        rw [readGroups_cons, if_pos ((contFlag_iff g).mpr continues),
          varint_of_continues _ enough index gathered below (by omega) continues,
          refVarint_of_more read (by omega) continues, share]
        exact later.after rfl
      · exact varint_agrees_of_ends place remains index gathered below (by omega) (by omega)

/-! ### The elements -/

/-- The machine answers an element at `s` as the reference does: the same run after the same number of bits, or
the same error. -/
inductive ElementAgrees (s : State) :
    Except DecodeError (Nat × Nat) → Host.Outcome State Fault Refusal → Prop
  | appended (r n : Nat) (t : State) (value : t.runlen = BitVec.ofNat 64 r) (fits : r < 2 ^ 64)
      (phase : t.phase = s.phase) (moved : t.pos = s.pos + n) : ElementAgrees s (.ok (r, n)) (.next t)
  | raised (e : DecodeError) (t : State) (error : EndsWithError e s t) :
      ElementAgrees s (.error e) (.next t)

/-- A `RUNVAR` that ends as the agreement says: the append follows what was read, the error ends the decode
(R130, R135, R176). -/
theorem VarintAgrees.element {s : State} {ref : Except DecodeError (Nat × Nat)} {a : Attempt}
    (h : VarintAgrees s ref a) (frame : AttemptFrame s a) :
    ElementAgrees s ref (finish (a.andThen fun s => .done (s.withRun s.vacc))) := by
  cases h with
  | done r n t value fits moved => exact .appended r n _ value fits frame.phase moved
  | raised e t =>
    obtain ⟨u, ended, error⟩ := endsWithError_of_raised rfl frame
    rw [andThen_raised, ended]
    exact .raised e u error

/-- A `RUNLIT` that the stream cuts short, in its tag or after it, raises `UnexpectedEnd` (R129, R172). -/
theorem exec_runlit_of_lt (lit : BitVec 4) {s : State} (short : s.rem < 6) :
    ∃ t, exec (.runlit lit) s = .next t ∧ EndsWithError .unexpectedEnd s t := by
  rcases Nat.lt_or_ge s.rem 2 with noTag | tag
  · exact exec_runlit_of_short_tag lit noTag
  · have frame := runlitReads_frame lit s
    have raised : ∃ t, runlitReads lit s = .raised .unexpectedEnd t := by
      rw [runlitReads, readTag_of_le 1 tag, andThen_done, consume_of_lt lit (by simp only; omega)]
      exact ⟨_, rfl⟩
    obtain ⟨t, raised⟩ := raised
    rw [exec, execRunlit_eq, raised, andThen_raised]
    exact endsWithError_of_raised rfl (raised ▸ frame)

/-- The element after the tag `0 1` (R129). -/
theorem literal_agrees {N : Nat} {rest : List Bool} {s : State}
    (remains : Remains N s.pos s.rem (false :: true :: rest)) :
    ElementAgrees s (refRunStep N s.pos s.rem) (exec (elementOf (decodeRun (false :: true :: rest))) s) := by
  obtain ⟨tag1, tag2, afterTag⟩ := remains.next_bit_pair
  obtain ⟨lit, element, whole⟩ := elementOf_of_literal_tag rest
  have length : s.rem = rest.length + 2 := remains.length
  rw [element]
  rcases Nat.lt_or_ge rest.length 4 with short | enough
  · obtain ⟨t, answer, error⟩ := exec_runlit_of_lt lit (s := s) (by omega)
    rw [answer, refRunStep_of_cut_literal tag1 tag2 (refNextBits_of_lt (by omega))]
    exact .raised _ t error
  · obtain ⟨after, rfl⟩ := whole enough
    have fits : lit.toNat < 2 ^ 64 := lt_trans lit.isLt (by norm_num)
    rw [runlitAppendsItsLiteral s lit (by omega), refRunStep_of_literal tag1 tag2 afterTag.next_field.1]
    exact .appended _ _ _ rfl fits rfl rfl

/-- The registers after the tag `0 0`, where `VARINT()` begins (R130). -/
def atGroups (s : State) : State :=
  { s with
    pos := s.pos + 2, rem := s.rem - 2, b1 := 0, b2 := 0, port := BitVec.setWidth 32 (0 : Bit)
    vacc := 0, vidx := 0 }

theorem runvarReads_of_le (groups : List Byte) {s : State} (tag : 2 ≤ s.rem) :
    runvarReads groups s = varint groups (atGroups s) := by
  rw [runvarReads, readTag_of_le 0 tag, andThen_done]
  rfl

/-- The element after the tag `0 0` (R130, R132). -/
theorem groups_agree {N : Nat} {rest : List Bool} {s : State}
    (remains : Remains N s.pos s.rem (false :: false :: rest)) :
    ElementAgrees s (refRunStep N s.pos s.rem) (exec (elementOf (decodeRun (false :: false :: rest))) s) := by
  obtain ⟨tag1, tag2, afterTag⟩ := remains.next_bit_pair
  have length : s.rem = rest.length + 2 := remains.length
  by_cases tail : tailZero rest = true
  · obtain ⟨low, high, _⟩ := (tailZero_iff rest).mp tail
    rw [decodeRun_of_tailZero tail, elementOf,
      runpadAppendsZeroAndEndsTheStream s rest.length low high (by omega),
      refRunStep_of_pad tag1 tag2 (afterTag.tailZero_iff.mp tail)]
    exact .appended 0 s.rem _ rfl (by norm_num) rfl (by simp only; omega)
  · have agrees : VarintAgrees (atGroups s) (refVarint N (9 + 1) 0 (s.pos + 2) (s.rem - 2)) _ :=
      varint_agrees (k := 0) rfl (s := atGroups s) afterTag rfl rfl (by norm_num)
    have answer := agrees.after (s := s) (m := 2) rfl
    rw [← runvarReads_of_le _ (by omega)] at answer
    rw [elementOf_of_groups_tag tail, exec, execRunvar_eq,
      refRunStep_of_varint tag1 tag2 (mt afterTag.tailZero_iff.mpr tail)]
    exact answer.element (runvarReads_frame _ s)

/-- The element at the cursor, from all the bits that remain, and `RUNSTEP` of the reference (R125). -/
theorem element_agrees {N : Nat} {bits : List Bool} {s : State} (remains : Remains N s.pos s.rem bits)
    (some_remain : 0 < s.rem) :
    ElementAgrees s (refRunStep N s.pos s.rem) (exec (elementOf (decodeRun bits)) s) := by
  have length := remains.length
  match bits with
  | [] => exact absurd length (by simp; omega)
  | true :: rest =>
    rw [show elementOf (decodeRun (true :: rest)) = .run1 from rfl, run1AppendsOne s some_remain,
      refRunStep_of_one remains.next_bit.1]
    exact .appended 1 1 _ rfl (by norm_num) rfl rfl
  | [false] =>
    have one : s.rem = 1 := length
    obtain ⟨t, answer, error⟩ := exec_runlit_of_lt 0 (s := s) (by omega)
    rw [show elementOf (decodeRun [false]) = .runlit 0 from rfl, answer,
      refRunStep_of_cut_tag remains.next_bit.1 (refNextBits_of_lt (by omega))]
    exact .raised _ t error
  | false :: true :: rest => exact literal_agrees remains
  | false :: false :: rest => exact groups_agree remains

end Sys2Proof.Laws
end

section
/-! A whole decode (spec/43_expander.md R158, R159): the header, the run loop and the expander of the machine,
from START to `DONE`, against the reference decode of the same bytes. -/

namespace Sys2Proof.Laws

open Sys2Proof.Machine Sys2Proof.Safety

/-! ### A decode of given bytes -/

/-- The decoder is at work on the bytes `data`, its cursor somewhere in them. -/
structure Decoding (data : List Byte) (s : State) : Prop where
  start : s.start = none
  buf : s.buf = attach data (fun _ => 0) data.length
  len : s.len = data.length
  cursor : CursorInv s

/-- A step leaves no START at the port: it took the one there, or there was none (R36). -/
theorem start_none_of_step {s t : State} (h : step s = .next t) : t.start = none := by
  cases step_cases h with
  | start => rfl
  | wait hc => exact hc
  | raised hc _ e u frame => exact frame.start.trans hc
  | header hc => exact hc
  | run hc _ _ u r read => exact read.frame.start.trans hc
  | expandStart hc => exact hc
  | expandRun hc => exact hc
  | expandEnd hc => exact hc

theorem Decoding.next {data : List Byte} {s t : State} (h : Decoding data s) (ht : step s = .next t) :
    Decoding data t := by
  obtain ⟨buf, len⟩ := (decoderNeverWritesTheBuffer s t ht).2 h.start
  exact ⟨start_none_of_step ht, buf.trans h.buf, len.trans h.len,
    everyStepKeepsTheCursorInvariant s t h.cursor ht⟩

theorem bigNat_lt (data : List Byte) : bigNat data < 2 ^ (8 * data.length) := by
  rw [bigNat_eq_natOfBits, ← bitsOfBytes_length]
  exact natOfBits_lt _

/-- The stream bits that remain are what remains of the buffer's integer (R7, R103). -/
theorem Decoding.remains {data : List Byte} {s : State} (h : Decoding data s) :
    ∃ bits, streamBits s.buf s.len s.pos s.rem = some bits ∧ Remains (bigNat data) s.pos s.rem bits := by
  have cursor : s.pos + s.rem = 8 * data.length := by rw [h.cursor, h.len]
  have small : bigNat data / 2 ^ s.pos < 2 ^ s.rem := by
    refine Nat.div_lt_of_lt_mul ?_
    rw [← pow_add, cursor]
    exact bigNat_lt data
  refine ⟨bitsOfNat s.rem (bigNat data / 2 ^ s.pos), ?_, ?_, (bitsOfNat_length _ _).symm⟩
  · rw [h.buf, h.len]
    exact streamBits_attach data _ (Nat.le_of_eq cursor)
  · rw [natOfBits_bitsOfNat, Nat.mod_eq_of_lt small]

/-- A window shows the first of the bits that remain. -/
theorem window_of_streamBits {s : State} {bits : List Bool}
    (read : streamBits s.buf s.len s.pos s.rem = some bits) (most : Nat) :
    window most s = some (bits.take most) := by
  have length : bits.length = s.rem := streamBits_length read
  rw [show s.rem = min s.rem most + (s.rem - min s.rem most) by omega] at read
  rw [window, (streamBits_split read).1, Nat.min_comm, ← length, ← List.take_eq_take_min]

/-! ### The run loop -/

/-- One step of the run loop does what `RUNSTEP` of the reference does (R125). -/
theorem Decoding.step_agrees {data : List Byte} {s : State} (h : Decoding data s) (hp : s.phase = .runs)
    (hr : 0 < s.rem) : ElementAgrees s (refRunStep (bigNat data) s.pos s.rem) (step s) := by
  obtain ⟨bits, read, remains⟩ := h.remains
  rw [step_of_runs h.start hp hr, fetchRun_of_window (window_of_streamBits read _), decodeRun_window]
  exact element_agrees remains hr

/-- `t` is later than `s` in the run loop of the same decode: `rs` are the runs read between them. -/
structure RunsAppended (rs : List Nat) (s t : State) : Prop where
  runs : t.runs.map BitVec.toNat = s.runs.map BitVec.toNat ++ rs
  first : t.first = s.first
  out : t.out = s.out
  cfg : t.cfg = s.cfg
  start : t.start = s.start

theorem RunsAppended.refl (s : State) : RunsAppended [] s s := by
  constructor <;> simp

theorem RunsAppended.cons {r : Nat} {rs : List Nat} {s t u : State} (h : RunsAppended [r] s t)
    (later : RunsAppended rs t u) : RunsAppended (r :: rs) s u where
  runs := by rw [later.runs, h.runs, List.append_assoc, List.singleton_append]
  first := later.first.trans h.first
  out := later.out.trans h.out
  cfg := later.cfg.trans h.cfg
  start := later.start.trans h.start

/-- A step that appends a run leaves the other registers that a decode's outcome depends on (R135). -/
theorem runsAppended_of_step {s t : State} {r : Nat} (hp : s.phase = .runs) (hr : 0 < s.rem)
    (ht : step s = .next t) (after : t.phase = .runs) (value : t.runlen = BitVec.ofNat 64 r)
    (fits : r < 2 ^ 64) : RunsAppended [r] s t := by
  obtain ⟨runs, _, _, _, first, _, _, _, out, _, _, _, cfg, start, _⟩ :=
    eachRunStepAppendsOneRun s t hp hr ht after
  refine ⟨?_, first, out, cfg, start⟩
  rw [runs, value, List.map_append, List.map_singleton, BitVec.toNat_ofNat, Nat.mod_eq_of_lt fits]

/-- The machine's run loop answers from `s` as the reference's does, in one step for each run: the same runs
up to the end of the stream, or the same error. -/
inductive LoopAgrees (s : State) : Except DecodeError (List Nat) → Prop
  | ended (rs : List Nat) (t : State) (run : steps rs.length s = .next t) (bound : rs.length ≤ s.rem)
      (phase : t.phase = .runs) (rem : t.rem = 0) (appended : RunsAppended rs s t) : LoopAgrees s (.ok rs)
  | raised (e : DecodeError) (k : Nat) (t : State) (run : steps k s = .next t) (bound : k ≤ s.rem)
      (start : t.start = s.start) (phase : t.phase = .done) (status : t.status = .error e)
      (out : t.out = s.out) : LoopAgrees s (.error e)

theorem LoopAgrees.cons {s t : State} {r : Nat} {ref : Except DecodeError (List Nat)}
    (ht : step s = .next t) (moved : t.rem < s.rem) (one : RunsAppended [r] s t) (h : LoopAgrees t ref) :
    LoopAgrees s (ref.map (r :: ·)) := by
  cases h with
  | ended rs u run bound phase rem appended =>
    exact .ended (r :: rs) u ((steps_succ ht).trans run) (by rw [List.length_cons]; omega) phase rem
      (one.cons appended)
  | raised e k u run bound start phase status out =>
    exact .raised e (k + 1) u ((steps_succ ht).trans run) (by omega) (start.trans one.start) phase status
      (out.trans one.out)

/-- The run loop of the reference, where bits remain (R136). -/
theorem refRuns_of_error {N most pos rem : Nat} {e : DecodeError} (remain : 0 < rem)
    (element : refRunStep N pos rem = .error e) : refRuns N (most + 1) pos rem = .error e := by
  rw [refRuns, if_neg (Nat.ne_of_gt remain), element]

theorem refRuns_of_ok {N most pos rem r n : Nat} (remain : 0 < rem)
    (element : refRunStep N pos rem = .ok (r, n)) :
    refRuns N (most + 1) pos rem = (refRuns N most (pos + n) (rem - n)).map (r :: ·) := by
  rw [refRuns, if_neg (Nat.ne_of_gt remain), element]
  simp only
  cases refRuns N most (pos + n) (rem - n) <;> rfl

/-- The whole run loop, where the reference may take as many turns as bits remain (R136, R139). -/
theorem Decoding.loop_agrees {data : List Byte} {most : Nat} {s : State} (h : Decoding data s)
    (hp : s.phase = .runs) (enough : s.rem ≤ most) :
    LoopAgrees s (refRuns (bigNat data) most s.pos s.rem) := by
  induction most generalizing s with
  | zero =>
    have ended : s.rem = 0 := Nat.le_zero.mp enough
    rw [ended, refRuns_of_end]
    exact .ended [] s rfl (Nat.zero_le _) hp ended (.refl s)
  | succ most ih =>
    rcases Nat.eq_zero_or_pos s.rem with ended | remain
    · rw [ended, refRuns_of_end]
      exact .ended [] s rfl (Nat.zero_le _) hp ended (.refl s)
    · have agrees := h.step_agrees hp remain
      generalize element : refRunStep (bigNat data) s.pos s.rem = ref, ht : step s = o at agrees
      cases agrees with
      | raised e t error =>
        obtain ⟨phase, status, out, _, _, _, start, _⟩ := error
        rw [refRuns_of_error remain element]
        exact .raised e 1 t (steps_one ht) remain start phase status out
      | appended r n t value fits phase moved =>
        have after : t.phase = .runs := phase.trans hp
        obtain ⟨_, fewer, sum, _⟩ := eachRunStepAppendsOneRun s t hp remain ht after
        have later := ih (h.next ht) after (by omega)
        rw [show t.pos = s.pos + n from moved, show t.rem = s.rem - n by omega] at later
        rw [refRuns_of_ok remain element]
        exact later.cons ht fewer (runsAppended_of_step hp remain ht after value fits)

/-! ### The header and the run loop -/

/-- The state that START leaves: the cursor at the first bit of a whole buffer, nothing read yet (R201). -/
structure Fresh (data : List Byte) (s : State) : Prop extends Decoding data s where
  whole : BufferInv s
  phase : s.phase = .header
  pos : s.pos = 0
  runs : s.runs = []
  out : s.out = []

/-- The header and the run loop of the machine answer as the reference's do: the same `FIRST` and the same
runs, or the same error. -/
inductive ParseAgrees (s : State) : Except DecodeError (Nat × List Nat) → Prop
  | ended (rs : List Nat) (t : State) (run : steps (rs.length + 1) s = .next t)
      (bound : rs.length ≤ 8 * s.len - 3) (start : t.start = none) (phase : t.phase = .runs)
      (rem : t.rem = 0) (runs : t.runs.map BitVec.toNat = rs) (out : t.out = []) (cfg : t.cfg = s.cfg) :
      ParseAgrees s (.ok (t.first.toNat, rs))
  | raised (e : DecodeError) (k : Nat) (t : State) (run : steps k s = .next t)
      (bound : k ≤ 8 * s.len - 3 + 1) (start : t.start = none) (phase : t.phase = .done)
      (status : t.status = .error e) (out : t.out = []) : ParseAgrees s (.error e)

/-- The header step raised. -/
theorem ParseAgrees.of_header_error {data : List Byte} {s t : State} {e : DecodeError} (h : Fresh data s)
    (ht : step s = .next t) (error : EndsWithError e s t) : ParseAgrees s (.error e) := by
  obtain ⟨phase, status, out, _, _, _, start, _⟩ := error
  exact .raised e 1 t (steps_one ht) (Nat.le_add_left _ _) (start.trans h.start) phase status (out.trans h.out)

/-- The header step entered the run loop, which answered. -/
theorem ParseAgrees.of_loop {s u : State} {ref : Except DecodeError (List Nat)} (hu : step s = .next u)
    (rem : u.rem = 8 * s.len - 3) (noRuns : u.runs = []) (noOut : u.out = []) (loop : LoopAgrees u ref) :
    ParseAgrees s (ref.map fun rs => (u.first.toNat, rs)) := by
  have port : u.start = none := start_none_of_step hu
  cases loop with
  | ended rs t run bound phase ended appended =>
    have runs : t.runs.map BitVec.toNat = rs := by rw [appended.runs, noRuns, List.map_nil, List.nil_append]
    have cfg : t.cfg = s.cfg := appended.cfg.trans (decoderNeverWritesTheBuffer s u hu).1
    rw [Except.map, ← appended.first]
    exact .ended rs t ((steps_succ hu).trans run) (rem ▸ bound) (appended.start.trans port) phase ended runs
      (appended.out.trans noOut) cfg
  | raised e k t run bound start phase status out =>
    exact .raised e (k + 1) t ((steps_succ hu).trans run) (by omega) (start.trans port) phase status
      (out.trans noOut)

theorem refParse_of_empty : refParse [] = .error .unexpectedEnd := rfl

theorem refParse_of_version {b : Byte} {bs : List Byte} (other : b.toNat % 4 ≠ 0) :
    refParse (b :: bs) = .error .invalidVersion := by
  have version : refNextBits (bigNat (b :: bs)) 2 0 (8 * (b :: bs).length) = some (b.toNat % 4) := by
    rw [refNextBits, if_pos (by rw [List.length_cons]; omega), bigNat]
    congr 1
    omega
  obtain ⟨v, hv⟩ := Nat.exists_eq_succ_of_ne_zero other
  simp only [refParse, version, hv]

/-- A header of version 0, and then the run loop (R115, R158). -/
theorem refParse_of_supported {b : Byte} {bs : List Byte} (supported : b.toNat % 4 = 0) :
    refParse (b :: bs)
      = (refRuns (bigNat (b :: bs)) (8 * (b :: bs).length) 3 (8 * (b :: bs).length - 3)).map
          fun rs => (b.toNat / 4 % 2, rs) := by
  have version : refNextBits (bigNat (b :: bs)) 2 0 (8 * (b :: bs).length) = some 0 := by
    rw [refNextBits, if_pos (by rw [List.length_cons]; omega), bigNat]
    congr 1
    omega
  have first : refNextBits (bigNat (b :: bs)) 1 2 (8 * (b :: bs).length - 2) = some (b.toNat / 4 % 2) := by
    rw [refNextBits, if_pos (by rw [List.length_cons]; omega), bigNat]
    congr 1
    omega
  simp only [refParse, version, first]
  cases refRuns (bigNat (b :: bs)) (8 * (b :: bs).length) 3 (8 * (b :: bs).length - 3) <;> rfl

/-- From START to the end of the stream the machine reads what the reference reads (R115, R125, R136). -/
theorem Fresh.parse_agrees {data : List Byte} {s : State} (h : Fresh data s) :
    ParseAgrees s (refParse data) := by
  cases data with
  | nil =>
    have remain : s.rem = 0 := by
      have cursor := h.cursor
      rw [CursorInv, h.len, List.length_nil] at cursor
      omega
    obtain ⟨t, ht, error⟩ := emptyBufferRaisesUnexpectedEnd s h.start h.phase remain
    rw [refParse_of_empty]
    exact .of_header_error h ht error
  | cons b bs =>
    have byte : memRead s.buf s.len 0 = some b := by
      rw [h.buf, h.len, List.length_cons, memRead_attach, if_pos (Nat.succ_pos _)]
      rfl
    obtain ⟨rejects, enters⟩ := headerStepLooksAtByteZero s b h.start h.phase h.pos h.cursor h.whole byte
    by_cases supported : b.toNat % 4 = 0
    · obtain ⟨u, hu, phase, _, first, pos, rem, runs⟩ := enters supported
      have noOut : u.out = [] :=
        (outInv_of_runs phase).mp (everyStepKeepsOutIncreasing s u ((outInv_of_header h.phase).mpr h.out) hu)
      have loop := (h.toDecoding.next hu).loop_agrees (most := 8 * (b :: bs).length) phase
        (by rw [rem, h.len]; exact Nat.sub_le _ _)
      rw [pos, rem, h.len] at loop
      rw [refParse_of_supported supported, ← first]
      exact .of_loop hu rem (runs.trans h.runs) noOut loop
    · obtain ⟨t, ht, error⟩ := rejects supported
      rw [refParse_of_version supported]
      exact .of_header_error h ht error

/-! ### The expander -/

/-- The expander is at work, and `l` are the runs it still has to expand. -/
structure Expanding (l : List RunLen) (s : State) : Prop where
  start : s.start = none
  phase : s.phase = .expand
  left : s.runs.drop s.ridx = l

theorem Expanding.run {r : RunLen} {l : List RunLen} {s : State} (h : Expanding (r :: l) s) :
    s.runs[s.ridx]? = some r := by
  have front : (s.runs.drop s.ridx)[0]? = some r := by rw [h.left]; rfl
  rwa [List.getElem?_drop] at front

theorem Expanding.expandRun {r : RunLen} {l : List RunLen} {s : State} (h : Expanding (r :: l) s) :
    Expanding l (expandRun r s) := by
  refine ⟨h.start, h.phase, ?_⟩
  rw [expandRun_runs, expandRun_ridx, ← List.drop_drop, h.left]
  rfl

theorem Expanding.step_of_fits {r : RunLen} {l : List RunLen} {s : State} (h : Expanding (r :: l) s)
    (fits : s.cfg.holdsPosition (s.acc + r.toNat) = true) : step s = .next (Machine.expandRun r s) := by
  rw [step_of_expand h.start h.phase, expandNext_of_fits h.run fits]

theorem Expanding.step_of_overflow {r : RunLen} {l : List RunLen} {s : State} (h : Expanding (r :: l) s)
    (overflow : s.cfg.holdsPosition (s.acc + r.toNat) = false) : step s = .refused .positionOverflow := by
  rw [step_of_expand h.start h.phase, expandNext_of_overflow h.run overflow]

theorem Expanding.step_of_nil {s : State} (h : Expanding [] s) : step s = .next (expandEnd s) := by
  rw [step_of_expand h.start h.phase, expandNext_of_end]
  exact List.getElem?_eq_none (List.drop_eq_nil_iff.mp h.left)

theorem isSet_flipState (b : Bit) : isSet (flipState b) = !isSet b := by
  revert b; decide

/-- Where `POS_BITS` holds the total, the expander takes one step for each run and one to end, and `OUT` is
what the reference emits (R151 to R155). -/
theorem Expanding.completes {l : List RunLen} {s : State} (h : Expanding l s)
    (fits : s.cfg.holdsPosition (s.acc + (l.map BitVec.toNat).sum) = true) :
    ∃ t, steps (l.length + 1) s = .next t ∧ t.start = none ∧ t.phase = .done ∧ t.status = .ok
      ∧ t.out = s.out ++ refExpand s.acc (isSet s.state) (l.map BitVec.toNat) := by
  induction l generalizing s with
  | nil => exact ⟨expandEnd s, steps_one h.step_of_nil, h.start, rfl, rfl, by simp [refExpand]⟩
  | cons r l ih =>
    rw [List.map_cons, List.sum_cons, ← Nat.add_assoc] at fits
    obtain ⟨t, run, start, phase, status, out⟩ := ih h.expandRun fits
    have first := h.step_of_fits (holdsPosition_mono (Nat.le_add_right _ _) fits)
    refine ⟨t, (steps_succ first).trans run, start, phase, status, ?_⟩
    rw [out, expandRun_out, expandRun_acc, expandRun_state, isSet_flipState, List.map_cons, refExpand,
      List.append_assoc]
    rfl

/-- Where `POS_BITS` does not hold the total, some run's step is refused (R159). -/
theorem Expanding.refused {l : List RunLen} {s : State} (h : Expanding l s)
    (soFar : s.cfg.holdsPosition s.acc = true)
    (overflow : s.cfg.holdsPosition (s.acc + (l.map BitVec.toNat).sum) = false) :
    steps l.length s = .refused .positionOverflow := by
  induction l generalizing s with
  | nil => exact absurd (soFar.symm.trans overflow) (by simp)
  | cons r l ih =>
    cases fits : s.cfg.holdsPosition (s.acc + r.toNat) with
    | false => exact steps_succ_of_refused (h.step_of_overflow fits)
    | true =>
      rw [List.map_cons, List.sum_cons, ← Nat.add_assoc] at overflow
      exact (steps_succ (h.step_of_fits fits)).trans (ih h.expandRun fits overflow)

/-- `EXPSTART` has every run before it (R150). -/
theorem expanding_expandStart {s : State} (port : s.start = none) : Expanding s.runs (expandStart s) :=
  ⟨port, rfl, rfl⟩

/-! ### Running to R213's bound -/

/-- Where a run is refused, so is every longer one. -/
theorem steps_add_of_refused {k : Nat} (n : Nat) {s : State} {r : Refusal} (h : steps k s = .refused r) :
    steps (k + n) s = .refused r := by
  induction k generalizing s with
  | zero => cases h
  | succ k ih =>
    rw [Nat.add_right_comm]
    cases hu : step s with
    | next u =>
      rw [steps_succ hu] at h ⊢
      exact ih h
    | fault f => rw [steps_succ_of_fault hu] at h; cases h
    | refused q =>
      rw [steps_succ_of_refused hu] at h ⊢
      exact h

/-- A decode that is at `DONE` stays there, up to any later bound (R189). -/
theorem steps_of_done {k bound : Nat} {s t : State} (run : steps k s = .next t) (le : k ≤ bound)
    (start : t.start = none) (phase : t.phase = .done) : steps bound s = .next t := by
  have wait : step t = .next t := by simp only [step, machineStep, start, decoderStep, phase]
  obtain ⟨n, rfl⟩ := Nat.exists_eq_add_of_le le
  rw [steps_add n run, steps_of_wait wait]

/-! ### The whole decode -/

theorem isSet_eq_decide (f : Bit) : isSet f = decide (f.toNat = 1) := by
  revert f; decide

theorem refDecode_of_error {data : List Byte} {e : DecodeError} (h : refParse data = .error e) :
    refDecode data = .err e ∧ refTotal data = 0 := by
  simp only [refDecode, refTotal, h, and_self]

theorem refDecode_of_ok {data : List Byte} {first : Bit} {rs : List Nat}
    (h : refParse data = .ok (first.toNat, rs)) :
    refDecode data = .ok (refExpand 0 (isSet first) rs) ∧ refTotal data = rs.sum := by
  simp only [refDecode, refTotal, h, isSet_eq_decide, and_self]

/-- From the state after START the machine ends with the outcome of the reference, if `POS_BITS` holds the
total (R158, R213). -/
theorem Fresh.completes {data : List Byte} {s : State} (h : Fresh data s)
    (fits : s.cfg.holdsPosition (refTotal data) = true) :
    ∃ t, steps (2 * (8 * data.length - 3) + 3) s = .next t ∧ t.phase = .done
      ∧ hostView t = .done (refDecode data) ∧ ∀ e, t.status = .error e → t.out = [] := by
  have agrees := h.parse_agrees
  rw [← h.len]
  generalize parse : refParse data = ref at agrees
  cases agrees with
  | raised e k t run bound start phase status out =>
    refine ⟨t, steps_of_done run (by omega) start phase, phase, ?_, fun _ _ => out⟩
    rw [hostView_eq_done_iff, status, (refDecode_of_error parse).1]
    exact ⟨phase, rfl⟩
  | ended rs t run bound start phase rem runs out cfg =>
    obtain ⟨outcome, total⟩ := refDecode_of_ok parse
    have expanding := expanding_expandStart start
    rw [total, ← cfg, ← runs, ← Nat.zero_add (List.sum _)] at fits
    obtain ⟨u, expand, startU, phaseU, statusU, outU⟩ := expanding.completes fits
    have whole : steps (rs.length + 1 + (t.runs.length + 1 + 1)) s = .next u := by
      rw [steps_add _ run, steps_succ (step_of_stream_end start phase rem), expand]
    have count : t.runs.length = rs.length := by rw [← runs, List.length_map]
    refine ⟨u, steps_of_done whole (by omega) startU phaseU, phaseU, ?_, by simp [statusU]⟩
    rw [hostView_eq_done_iff, statusU, outcome, outU, expandStart_out, out, runs]
    exact ⟨phaseU, rfl⟩

/-- From the state after START the machine is refused, if `POS_BITS` does not hold the total (R159). -/
theorem Fresh.refused {data : List Byte} {s : State} (h : Fresh data s)
    (overflow : s.cfg.holdsPosition (refTotal data) = false) :
    steps (2 * (8 * data.length - 3) + 3) s = .refused .positionOverflow := by
  have agrees := h.parse_agrees
  rw [← h.len]
  generalize parse : refParse data = ref at agrees
  cases agrees with
  | raised e k t run bound start phase status out =>
    rw [(refDecode_of_error parse).2, holdsPosition_zero] at overflow
    cases overflow
  | ended rs t run bound start phase rem runs out cfg =>
    rw [(refDecode_of_ok parse).2, ← cfg, ← runs, ← Nat.zero_add (List.sum _)] at overflow
    have refusal := (expanding_expandStart start).refused (holdsPosition_zero _) overflow
    have whole : steps (rs.length + 1 + (t.runs.length + 1)) s = .refused .positionOverflow := by
      rw [steps_add _ run, steps_succ (step_of_stream_end start phase rem), refusal]
    have count : t.runs.length = rs.length := by rw [← runs, List.length_map]
    obtain ⟨n, bound⟩ := Nat.exists_eq_add_of_le
      (show rs.length + 1 + (t.runs.length + 1) ≤ 2 * (8 * s.len - 3) + 3 by omega)
    rw [bound]
    exact steps_add_of_refused n whole

/-! ### START -/

/-- Of the host's data START attaches the first `LEN` bytes (R201, R202 (b)). -/
theorem attach_take {data : List Byte} {len : Nat} (whole : len ≤ data.length) (beyond : Nat → Byte) :
    attach data beyond len = attach (data.take len) (fun _ => 0) (data.take len).length := by
  have length : (data.take len).length = len := List.length_take_of_le whole
  rw [length, attach_beyond_irrelevant whole beyond (fun _ => 0)]
  refine List.map_congr_left fun a ha => ?_
  rw [List.getElem?_take_of_lt (List.mem_range.mp ha)]

theorem fresh_startDecode {c : StartCommand} (whole : c.len ≤ c.data.length) (s : State) :
    Fresh (c.data.take c.len) (startDecode c s) where
  start := rfl
  buf := attach_take whole _
  len := (List.length_take_of_le whole).symm
  cursor := cursorInv_startDecode c s
  whole := bufferInv_startDecode c s
  phase := rfl
  pos := rfl
  runs := rfl
  out := rfl

/-- The step of the START, and R213's bound on those after it. -/
theorem steps_stepBound_of_start {s : State} {c : StartCommand} (accepts : startable s = true)
    (port : s.start = some c) (admits : s.cfg.admitsLen c.len = true) (whole : c.len ≤ c.data.length) :
    steps (stepBound c.len) s
      = steps (2 * (8 * (c.data.take c.len).length - 3) + 3) (startDecode c s) := by
  have first : step s = .next (startDecode c s) := by
    rw [step_of_start accepts port, acceptStart, if_pos admits]
  rw [stepBound, Nat.add_comm, steps_succ first, List.length_take_of_le whole]

/-- Settles O57: START attaches the bytes, and from there the machine's decode is the reference's. -/
theorem machineComputesTheDecodeFunction : Obligations.MachineComputesTheDecodeFunction := by
  intro s c accepts port admits whole fits
  rw [steps_stepBound_of_start accepts port admits whole]
  exact (fresh_startDecode whole s).completes fits

/-- Settles O58: the decode reaches the expander, whose steps end in the refusal. -/
theorem decodeBeyondPosBitsIsRefused : Obligations.DecodeBeyondPosBitsIsRefused := by
  intro s c accepts port admits whole overflow
  rw [steps_stepBound_of_start accepts port admits whole]
  exact (fresh_startDecode whole s).refused overflow

end Sys2Proof.Laws
end

section
/-! The errors (spec/60_exceptions.md R170 to R178): which of them each element may raise, what makes a
`RUNVAR` raise each of its three, and that an element the stream cuts short raises `UnexpectedEnd`. -/

namespace Sys2Proof.Laws

open Sys2Proof.Machine Sys2Proof.Safety

/-! ### Which errors an element may raise -/

/-- The attempt raises an error of `allowed` or none, and one that is done leaves the decode going on. -/
def RaisesOnly (allowed : DecodeError → Prop) : Attempt → Prop
  | .done t => t.phase ≠ .done
  | .raised e _ => allowed e

theorem RaisesOnly.andThen {allowed : DecodeError → Prop} {a : Attempt} {next : State → Attempt}
    (h : RaisesOnly allowed a) (k : ∀ t, t.phase ≠ .done → RaisesOnly allowed (next t)) :
    RaisesOnly allowed (a.andThen next) := by
  cases a with
  | done t => exact k t h
  | raised e t => exact h

/-- An element ends the decode only by an error of its reads, which `STATUS` then holds (R176): what it writes
after them raises nothing. -/
theorem error_of_finish {allowed : DecodeError → Prop} {a : Attempt} {write : State → State} {t : State}
    (ended : finish (a.andThen fun s => .done (write s)) = .next t) (atDone : t.phase = .done)
    (reads : RaisesOnly allowed a) (on : ∀ u, u.phase ≠ .done → (write u).phase ≠ .done) :
    ∃ e, allowed e ∧ t.status = .error e := by
  cases a with
  | done u => cases ended; exact absurd atDone (on u reads)
  | raised e u => cases ended; exact ⟨e, reads, rfl⟩

section

variable {allowed : DecodeError → Prop} {s : State}

theorem consume_raisesOnly (cut : allowed .unexpectedEnd) {w : Nat} (v : BitVec w) (on : s.phase ≠ .done) :
    RaisesOnly allowed (consume w v s) := by
  rcases Nat.lt_or_ge s.rem w with short | enough
  · rw [consume_of_lt v short]
    exact cut
  · rw [consume_of_le v enough]
    exact on

theorem readB1_raisesOnly (cut : allowed .unexpectedEnd) (b : Bit) (on : s.phase ≠ .done) :
    RaisesOnly allowed (readB1 b s) :=
  (consume_raisesOnly cut b on).andThen fun _ on => on

theorem readTag_raisesOnly (cut : allowed .unexpectedEnd) (b : Bit) (on : s.phase ≠ .done) :
    RaisesOnly allowed (readTag b s) :=
  (readB1_raisesOnly cut 0 on).andThen fun _ on => (consume_raisesOnly cut b on).andThen fun _ on => on

end

/-- The header's two reads raise `UnexpectedEnd`, its check `InvalidVersion` (R170, R171). -/
theorem hdrReads_raisesOnly (v : BitVec 2) (f : Bit) {s : State} (on : s.phase ≠ .done) :
    RaisesOnly (fun e => e = .invalidVersion ∨ e = .unexpectedEnd) (hdrReads v f s) := by
  have check (t : State) (on : t.phase ≠ .done) :
      RaisesOnly (fun e => e = .invalidVersion ∨ e = .unexpectedEnd) (checkVersion t) := by
    unfold checkVersion
    split_ifs
    · exact on
    · exact .inl rfl
  refine RaisesOnly.andThen ((consume_raisesOnly (.inr rfl) v on).andThen fun _ on => on) fun t on => ?_
  exact (check t on).andThen fun _ on => (consume_raisesOnly (.inr rfl) f on).andThen fun _ on => on

/-- `VARINT()` raises the other three errors (R170, R171). -/
theorem varint_raisesOnly (gs : List Byte) {s : State} (on : s.phase ≠ .done) :
    RaisesOnly (fun e => e ≠ .invalidVersion) (varint gs s) := by
  induction gs generalizing s with
  | nil => exact DecodeError.noConfusion
  | cons g gs ih =>
    rw [varint]
    refine (consume_raisesOnly DecodeError.noConfusion g on).andThen fun t on => ?_
    simp only
    split_ifs
    · exact DecodeError.noConfusion
    · exact ih on
    · exact DecodeError.noConfusion
    · exact on

theorem runlitReads_raisesOnly {allowed : DecodeError → Prop} (cut : allowed .unexpectedEnd)
    (lit : BitVec 4) {s : State} (on : s.phase ≠ .done) : RaisesOnly allowed (runlitReads lit s) :=
  (readTag_raisesOnly cut 1 on).andThen fun _ on => consume_raisesOnly cut lit on

theorem runvarReads_raisesOnly (gs : List Byte) {s : State} (on : s.phase ≠ .done) :
    RaisesOnly (fun e => e ≠ .invalidVersion) (runvarReads gs s) :=
  (readTag_raisesOnly DecodeError.noConfusion 0 on).andThen fun _ on => varint_raisesOnly gs on

/-- A header that ends the decode has raised `InvalidVersion` or `UnexpectedEnd` (R171). -/
theorem error_of_exec_hdr {v : BitVec 2} {f : Bit} {s t : State} (on : s.phase ≠ .done)
    (h : exec (.hdr v f) s = .next t) (atDone : t.phase = .done) :
    ∃ e, (e = .invalidVersion ∨ e = .unexpectedEnd) ∧ t.status = .error e := by
  rw [exec, execHdr_eq] at h
  exact error_of_finish h atDone (hdrReads_raisesOnly v f on) fun _ _ => Phase.noConfusion

/-- A run element that ends the decode has not raised `InvalidVersion` (R171). -/
theorem error_of_exec_run {i : Instr} {s t : State} (isRun : ∀ v f, i ≠ .hdr v f)
    (isElement : ∀ n, i ≠ .nextbits n) (on : s.phase ≠ .done) (h : exec i s = .next t)
    (atDone : t.phase = .done) : ∃ e, e ≠ .invalidVersion ∧ t.status = .error e := by
  have cut : DecodeError.unexpectedEnd ≠ .invalidVersion := DecodeError.noConfusion
  cases i with
  | hdr v f => exact absurd rfl (isRun v f)
  | run1 =>
    rw [exec, execRun1] at h
    exact error_of_finish h atDone (readB1_raisesOnly cut 1 on) fun _ on => on
  | runlit lit =>
    rw [exec, execRunlit_eq] at h
    exact error_of_finish h atDone (runlitReads_raisesOnly cut lit on) fun _ on => on
  | runvar gs =>
    rw [exec, execRunvar_eq] at h
    exact error_of_finish h atDone (runvarReads_raisesOnly gs on) fun _ on => on
  | runpad pad =>
    rw [exec, execRunpad] at h
    exact error_of_finish h atDone (readTag_raisesOnly cut 0 on) fun _ on => on
  | nextbits n => exact absurd rfl (isElement n)

/-! ### Errors come before the expander -/

/-- A step in `HEADER` that answers a state ran a header (R36 row 2). -/
theorem exec_of_step_in_header {s t : State} (port : s.start = none) (phase : s.phase = .header)
    (h : step s = .next t) : ∃ v f, exec (.hdr v f) s = .next t := by
  rw [step_of_header port phase, fetchHdr] at h
  cases hw : window 3 s with
  | none => rw [hw] at h; cases h
  | some bits =>
    obtain ⟨v, f, element⟩ := elementOf_decodeHdr bits
    rw [hw, Option.map_some, element] at h
    exact ⟨v, f, h⟩

/-- A step of the run loop that answers a state ran a run element (R36 row 4). -/
theorem exec_of_step_in_runs {s t : State} (port : s.start = none) (phase : s.phase = .runs)
    (remain : 0 < s.rem) (h : step s = .next t) :
    ∃ i, (∀ v f, i ≠ .hdr v f) ∧ (∀ n, i ≠ .nextbits n) ∧ exec i s = .next t := by
  rw [step_of_runs port phase remain, fetchRun] at h
  cases hw : window Config.longestElement s with
  | none => rw [hw] at h; cases h
  | some bits =>
    obtain ⟨isElement, isRun⟩ := elementOf_decodeRun bits
    rw [hw] at h
    exact ⟨_, isRun, isElement, h⟩

/-- The error of a step into `DONE` is one of the phase it is raised in (R171). -/
theorem error_of_step {s t : State} {e : DecodeError} (port : s.start = none)
    (phase : s.phase = .header ∨ s.phase = .runs) (h : step s = .next t) (atDone : t.phase = .done)
    (error : t.status = .error e) :
    (s.phase = .header ∧ (e = .invalidVersion ∨ e = .unexpectedEnd))
      ∨ (s.phase = .runs ∧ e ≠ .invalidVersion) := by
  have on : s.phase ≠ .done := by rcases phase with phase | phase <;> simp [phase]
  rcases phase with header | runs
  · obtain ⟨v, f, ran⟩ := exec_of_step_in_header port header h
    obtain ⟨e', allowed, status⟩ := error_of_exec_hdr on ran atDone
    cases status.symm.trans error
    exact .inl ⟨header, allowed⟩
  · have remain : 0 < s.rem := by
      by_contra noneLeft
      rw [step_of_stream_end port runs (by omega)] at h
      cases h
      cases atDone
    obtain ⟨i, isRun, isElement, ran⟩ := exec_of_step_in_runs port runs remain h
    obtain ⟨e', allowed, status⟩ := error_of_exec_run isRun isElement on ran atDone
    cases status.symm.trans error
    exact .inr ⟨runs, allowed⟩

/-- Settles O47: of R36's rows only the elements' lead to `DONE` with an error; the frame of their reads is
what the error leaves alone. -/
theorem errorsAreRaisedBeforeExpansion : Obligations.ErrorsAreRaisedBeforeExpansion := by
  intro s t e h notDone atDone error
  cases step_cases h with
  | raised port phase e' u frame =>
    refine ⟨error_of_step port phase h atDone error, rfl, ?_⟩
    cases error
    obtain ⟨_, ended, ends⟩ := endsWithError_of_raised (a := .raised e u) rfl frame
    cases ended
    exact ends
  | wait => exact absurd atDone notDone
  | run _ _ _ u r read => exact absurd (read.frame.phase.symm.trans atDone) notDone
  | expandRun => exact absurd atDone notDone
  | expandEnd => cases error
  | start | header | expandStart => cases atDone

/-! ### The three errors of VARINT -/

/-- `VARINT()` needs a whole group, whichever it is to be (R172). -/
theorem varint_of_lt (gs : List Byte) {s : State} (short : s.rem < 8) :
    varint gs s = .raised .unexpectedEnd s := by
  cases gs with
  | nil => rfl
  | cons g gs => rw [varint, consume_of_lt g short, andThen_raised]

/-- `VARINT()` on groups that all have their continuation flag, none of them the 10th, and that the stream
holds: it goes on with those after them (R130). What it has gathered matters to no error. -/
theorem varint_append {front : List Byte} (rest : List Byte) (continues : ∀ g ∈ front, contFlag g = true)
    {k : Nat} {s : State} (place : k + front.length ≤ 9) (enough : 8 * front.length ≤ s.rem)
    (index : s.vidx = BitVec.ofNat 4 k) :
    ∃ t, varint (front ++ rest) s = varint rest t ∧ t.rem = s.rem - 8 * front.length
      ∧ t.vidx = BitVec.ofNat 4 (k + front.length) := by
  induction front generalizing k s with
  | nil => exact ⟨s, rfl, rfl, index⟩
  | cons g front ih =>
    obtain ⟨flag, others⟩ := List.forall_mem_cons.mp continues
    rw [List.length_cons] at place enough
    have notTenth : ¬ (s.vidx = 9 ∧ Config.varLastMax < g) := by
      rintro ⟨tenth, _⟩
      exact absurd (eq_nine_of_ofNat (index.symm.trans tenth) (by omega)) (by omega)
    have next : s.vidx + 1 = BitVec.ofNat 4 (k + 1) := by rw [index, BitVec.ofNat_add]; rfl
    rw [List.cons_append, varint_cons g _ (show 8 ≤ s.rem by omega)]
    simp only [if_neg notTenth, if_pos flag, next]
    obtain ⟨t, goesOn, rem, vidx⟩ := ih others (k := k + 1) (s := { s.advance 8 g with
      vbyte := g, vacc := s.vacc ||| groupShare g s.vidx, vidx := BitVec.ofNat 4 (k + 1) })
      (by omega) (by simp only [State.advance_rem]; omega) rfl
    refine ⟨t, goesOn, ?_, ?_⟩
    · rw [rem, State.advance_rem, List.length_cons]
      omega
    · rw [vidx, List.length_cons, Nat.add_right_comm, Nat.add_assoc]

/-- `VARINT()` where the stream ends in or right after groups that have their continuation flag: whatever
groups stand after them, it raises `UnexpectedEnd` (R172, R178). -/
theorem varint_of_cut {front : List Byte} (rest : List Byte) (continues : ∀ g ∈ front, contFlag g = true)
    {s : State} (place : front.length ≤ 9) (short : s.rem < 8 * (front.length + 1)) (index : s.vidx = 0) :
    ∃ t, varint (front ++ rest) s = .raised .unexpectedEnd t := by
  have whole : (front.take (s.rem / 8)).length = s.rem / 8 := List.length_take_of_le (by omega)
  obtain ⟨t, goesOn, rem, _⟩ := varint_append (front := front.take (s.rem / 8)) (k := 0)
    (s := s) (front.drop (s.rem / 8) ++ rest)
    (fun g member => continues g (List.mem_of_mem_take member)) (by omega) (by omega) index
  rw [← List.append_assoc, List.take_append_drop, varint_of_lt (s := t) _ (by omega)] at goesOn
  exact ⟨t, goesOn⟩

/-- Well-formed groups are some that have their continuation flag, and a last one (R74, R79). -/
theorem groupsWf_split {more : Nat} {gs : List Byte} (wf : groupsWf (more + 1) gs = true) :
    ∃ front last, gs = front ++ [last] ∧ (∀ g ∈ front, contFlag g = true) ∧ front.length ≤ more := by
  induction gs generalizing more with
  | nil => simp [groupsWf] at wf
  | cons g gs ih =>
    match gs, more with
    | [], more => exact ⟨[], g, rfl, by simp, Nat.zero_le _⟩
    | _ :: _, 0 => simp [groupsWf] at wf
    | g' :: gs, more + 1 =>
      obtain ⟨flag, others⟩ := groupsWf_cons_cons.mp wf
      obtain ⟨front, last, split, continues, length⟩ := ih others
      exact ⟨g :: front, last, by rw [split, List.cons_append],
        List.forall_mem_cons.mpr ⟨(contFlag_iff g).mpr flag, continues⟩, Nat.succ_le_succ length⟩

/-! ### The errors of RUNVAR -/

/-- A `RUNVAR` whose reads raise ends the decode with that error (R176). -/
theorem exec_runvar_of_raised {gs : List Byte} {s t : State} {e : DecodeError}
    (raised : runvarReads gs s = .raised e t) :
    ∃ u, exec (.runvar gs) s = .next u ∧ EndsWithError e s u := by
  rw [exec, execRunvar_eq, raised, andThen_raised]
  exact endsWithError_of_raised rfl (raised ▸ runvarReads_frame gs s)

/-- A `RUNVAR` that the stream holds up to its last group is decided by that group. -/
theorem exec_runvar_of_last {front : List Byte} {last : Byte} {s : State} {e : DecodeError}
    (continues : ∀ g ∈ front, contFlag g = true) (place : front.length ≤ 9)
    (enough : 2 + 8 * (front.length + 1) ≤ s.rem)
    (raises : ∀ t : State, 8 ≤ t.rem → t.vidx = BitVec.ofNat 4 front.length →
      ∃ u, varint [last] t = .raised e u) :
    ∃ u, exec (.runvar (front ++ [last])) s = .next u ∧ EndsWithError e s u := by
  have remain : (atGroups s).rem = s.rem - 2 := rfl
  obtain ⟨t, goesOn, rem, vidx⟩ := varint_append [last] continues (k := 0) (s := atGroups s)
    (by omega) (by omega) rfl
  rw [Nat.zero_add] at vidx
  obtain ⟨u, raised⟩ := raises t (by omega) vidx
  exact exec_runvar_of_raised ((runvarReads_of_le _ (by omega)).trans (goesOn.trans raised))

/-- Settles O33: nine groups go by, and the 10th meets R131's test. -/
theorem tenthGroupAboveOneRaisesRunTooLong : Obligations.TenthGroupAboveOneRaisesRunTooLong := by
  intro s gs wf length large enough
  obtain ⟨front, last, rfl, continues, _⟩ := groupsWf_split wf
  rw [List.getLastD_concat] at large
  rw [List.length_append, List.length_singleton] at length
  have nine : front.length = 9 := by omega
  refine exec_runvar_of_last continues nine.le (by omega) fun t group index => ?_
  exact varint_of_tooLong [] group (by rw [index, nine]) large

/-- Settles O34: the groups before the last go by, and the last meets R133's test. -/
theorem nonCanonicalZeroRaisesInvalidRun : Obligations.NonCanonicalZeroRaisesInvalidRun := by
  intro s gs wf two zero enough
  obtain ⟨front, last, rfl, continues, place⟩ := groupsWf_split wf
  rw [List.getLastD_concat] at zero
  subst zero
  rw [List.length_append, List.length_singleton] at two enough
  refine exec_runvar_of_last continues place enough fun t group index => ?_
  exact varint_of_zero group index (by omega) place

/-! ### Elements that the stream cuts short -/

theorem hdrReads_zero_of_lt (f : Bit) {s : State} (short : s.rem < 3) :
    ∃ t, hdrReads 0 f s = .raised .unexpectedEnd t := by
  rcases Nat.lt_or_ge s.rem 2 with noVersion | enough
  · exact ⟨s, hdrReads_of_lt 0 f noVersion⟩
  · have check : checkVersion { s.advance 2 0 with version := 0 }
        = .done { s.advance 2 0 with version := 0 } := if_pos rfl
    have noFirst : ({ s.advance 2 0 with version := 0 } : State).rem < 1 := by
      simp only [State.advance_rem]
      omega
    rw [hdrReads, readVersion_of_le 0 enough, andThen_done, check, andThen_done, readFirst,
      consume_of_lt f noFirst]
    exact ⟨_, rfl⟩

theorem exec_run1_of_lt {s : State} (short : s.rem < 1) :
    ∃ t, exec .run1 s = .next t ∧ EndsWithError .unexpectedEnd s t := by
  rw [exec, execRun1, readB1, consume_of_lt 1 short]
  exact endsWithError_of_raised rfl (.refl s)

theorem exec_runpad_of_lt (pad : Nat) {s : State} (short : s.rem < 2) :
    ∃ t, exec (.runpad pad) s = .next t ∧ EndsWithError .unexpectedEnd s t := by
  obtain ⟨u, cut⟩ := readTag_of_lt 0 short
  rw [exec, execRunpad, cut, andThen_raised]
  exact endsWithError_of_raised rfl (cut ▸ readTag_frame 0 s)

/-- A `RUNVAR` of which the stream ends in the tag, in groups that have their continuation flag, or right
after them (R172, R178). -/
theorem exec_runvar_of_cut {front : List Byte} (rest : List Byte) {s : State}
    (continues : ∀ g ∈ front, contFlag g = true) (place : front.length ≤ 9)
    (short : s.rem < 2 + 8 * (front.length + 1)) :
    ∃ t, exec (.runvar (front ++ rest)) s = .next t ∧ EndsWithError .unexpectedEnd s t := by
  rcases Nat.lt_or_ge s.rem 2 with noTag | tag
  · obtain ⟨u, cut⟩ := readTag_of_lt 0 noTag
    exact exec_runvar_of_raised (t := u) (by rw [runvarReads, cut, andThen_raised])
  · have remain : (atGroups s).rem = s.rem - 2 := rfl
    obtain ⟨t, raised⟩ := varint_of_cut rest continues (s := atGroups s) place (by omega) rfl
    exact exec_runvar_of_raised ((runvarReads_of_le _ tag).trans raised)

/-- Settles O35: each element's reads in their order, the first one that the stream does not hold raises. -/
theorem shortStreamRaisesUnexpectedEnd : Obligations.ShortStreamRaisesUnexpectedEnd := by
  intro s i wf header pad isElement short
  cases i with
  | hdr v f =>
    rcases header v f rfl with rfl | noVersion
    · obtain ⟨t, raised⟩ := hdrReads_zero_of_lt f short
      exact exec_hdr_of_raised raised
    · exact exec_hdr_of_raised (hdrReads_of_lt v f noVersion)
  | run1 => exact exec_run1_of_lt short
  | runlit lit => exact exec_runlit_of_lt lit short
  | runvar gs =>
    obtain ⟨front, last, rfl, continues, place⟩ := groupsWf_split wf
    rw [Instr.bits, List.length_append, List.length_singleton] at short
    exact exec_runvar_of_cut [last] continues place short
  | runpad p => exact exec_runpad_of_lt p (pad p rfl)
  | nextbits n => exact absurd rfl (isElement n)

/-! ### The step of a cut element -/

/-- Where the decoder finds no whole run element: on no bit at all, in the second tag bit or the literal, or
in a group after others that have their continuation flag (R80, R172). -/
theorem decodeRun_error_cases {bits : List Bool} {c : Cut} (h : decodeRun bits = .error c) :
    bits = []
      ∨ (bits.length < 6 ∧ c.element = .runlit 0)
      ∨ ∃ gs, c.element = .runvar gs ∧ (∀ g ∈ gs, contFlag g = true) ∧ gs.length ≤ 9
          ∧ bits.length < 2 + 8 * (gs.length + 1) := by
  match bits with
  | [] => exact .inl rfl
  | [false] | [false, true] | [false, true, _] | [false, true, _, _] | [false, true, _, _, _] =>
    cases h
    exact .inr (.inl ⟨by simp, rfl⟩)
  | true :: _ | false :: true :: _ :: _ :: _ :: _ :: _ => cases h
  | false :: false :: rest =>
    by_cases tail : tailZero rest = true
    · rw [decodeRun_of_tailZero tail] at h
      cases h
    · rw [decodeRun_of_not_tailZero tail] at h
      split_ifs at h with whole
      cases h
      obtain ⟨_, _, _, cut⟩ := readGroups_spec Config.varMaxBytes rest
      obtain ⟨length, room, continues⟩ := cut (Bool.eq_false_iff.mpr whole)
      refine .inr (.inr ⟨_, rfl, continues, Nat.le_of_lt_succ room, ?_⟩)
      simp only [List.length_cons]
      omega

/-- Settles O24: a window that cuts an element short is all that remains of the stream, and the element read
that far raises. -/
theorem stepOfACutElementRaises : Obligations.StepOfACutElementRaises := by
  intro s bits c port phase remain seen cut
  have length : bits.length = min s.rem 82 := streamBits_length seen
  rw [step_of_runs port phase remain, fetchRun_of_window seen, cut]
  change ∃ t, exec c.element s = .next t ∧ _
  rcases decodeRun_error_cases cut with rfl | ⟨short, element⟩ | ⟨gs, element, continues, place, short⟩
  · rw [List.length_nil] at length
    omega
  · rw [element]
    exact exec_runlit_of_lt 0 (by omega)
  · rw [element, ← List.append_nil gs]
    exact exec_runvar_of_cut [] continues place (by omega)

end Sys2Proof.Laws
end

section
/-! START, progress and the end of every decode (spec/70_reset_and_hazards.md R201, R206, R213, R216): what the
step of a START does where it is accepted and where it is refused, that a busy decoder always has a next step, and
that a decode ends within R213's bound, also where `LEN` is larger than the host's data. -/

namespace Sys2Proof.Laws

open Sys2Proof.Machine Sys2Proof.Safety

/-! ### The step of a START -/

theorem busy_iff {s : State} :
    busy s = true ↔ s.phase = .header ∨ s.phase = .runs ∨ s.phase = .expand := by
  cases hp : s.phase <;> simp [busy, hp]

/-- A START that the hardware accepts is taken in one step (R36 row 1). -/
theorem step_of_accepted_start {s : State} {c : StartCommand} (accepts : startable s = true)
    (port : s.start = some c) (admits : s.cfg.admitsLen c.len = true) :
    step s = .next (startDecode c s) := by
  rw [step_of_start accepts port, acceptStart, if_pos admits]

/-- Settles O3: the registers are what START writes, and an attached byte below the data's end is the data's. -/
theorem startBeginsAFreshDecode : Obligations.StartBeginsAFreshDecode := by
  intro s c accepts port admits
  refine ⟨startDecode c s, step_of_accepted_start accepts port admits,
    rfl, rfl, rfl, rfl, rfl, rfl, rfl, rfl, fun a below b listed => ?_⟩
  rw [startDecode_buf, startDecode_len, memRead_attach, if_pos below, listed, Option.getD_some]

/-- Settles O4: none of the three busy phases accepts a START. -/
theorem startWhileBusyIsRefused : Obligations.StartWhileBusyIsRefused := by
  intro s c atWork port
  rcases busy_iff.mp atWork with hp | hp | hp <;> simp only [step, machineStep, port, startStep, hp]

/-! ### Progress -/

/-- In the run loop there is a next step: an element to execute, or the end of the stream (R36 rows 4 to 6). -/
theorem step_next_of_runs {s : State} (port : s.start = none) (hp : s.phase = .runs) (cursor : CursorInv s)
    (buffer : BufferInv s) : ∃ t, step s = .next t := by
  rcases Nat.eq_zero_or_pos s.rem with ended | remain
  · exact ⟨_, step_of_stream_end port hp ended⟩
  · rw [step_of_runs port hp remain]
    exact runElement_fetchRun_next cursor buffer

/-- An unbounded counter never stops the expander (R36 rows 7 and 8, R159). -/
theorem expandNext_next_of_unbounded {s : State} (unbounded : s.cfg.posBits = none) :
    ∃ t, expandNext s = .next t := by
  cases run : s.runs[s.ridx]? with
  | none => exact ⟨_, expandNext_of_end run⟩
  | some r => exact ⟨_, expandNext_of_fits run (holdsPosition_of_unbounded unbounded _)⟩

/-- Settles O49: each of the three busy phases has a next step. -/
theorem busyDecoderTakesAStep : Obligations.BusyDecoderTakesAStep := by
  intro s atWork port unbounded cursor buffer
  rcases busy_iff.mp atWork with hp | hp | hp
  · rw [step_of_header port hp]
    exact runElement_fetchHdr_next cursor buffer
  · exact step_next_of_runs port hp cursor buffer
  · rw [step_of_expand port hp]
    exact expandNext_next_of_unbounded unbounded

/-! ### Every decode ends -/

/-- The bytes of the buffer that START attaches: the host's data up to `LEN`, and past its end what follows it
(R202 (b)). -/
def attachedBytes (data : List Byte) (beyond : Nat → Byte) (len : Nat) : List Byte :=
  (attach data beyond len).map Prod.snd

@[simp] theorem attachedBytes_length (data : List Byte) (beyond : Nat → Byte) (len : Nat) :
    (attachedBytes data beyond len).length = len := by
  simp [attachedBytes, attach]

/-- A buffer longer than the host's data is the buffer of a host that hands over all of its bytes. -/
theorem attach_attachedBytes (data : List Byte) (beyond other : Nat → Byte) (len : Nat) :
    attach (attachedBytes data beyond len) other len = attach data beyond len := by
  refine List.map_congr_left fun a ha => ?_
  have below : a < len := List.mem_range.mp ha
  simp [attachedBytes, attach, below]

/-- Whatever `LEN` is, START begins the decode of the bytes that it attaches. -/
theorem fresh_startDecode_attachedBytes (c : StartCommand) (s : State) :
    Fresh (attachedBytes c.data (Config.freeByte s.draws) c.len) (startDecode c s) where
  start := rfl
  buf := by rw [attachedBytes_length, attach_attachedBytes, startDecode_buf]
  len := (attachedBytes_length _ _ _).symm
  cursor := cursorInv_startDecode c s
  whole := bufferInv_startDecode c s
  phase := rfl
  pos := rfl
  runs := rfl
  out := rfl

/-- Settles O59: the bytes that START attaches are a whole buffer, and the decode of a whole buffer completes
within the bound where `POS_BITS` is unbounded. -/
theorem everyDecodeEnds : Obligations.EveryDecodeEnds := by
  intro s c accepts port admits unbounded
  obtain ⟨t, run, done, _⟩ := (fresh_startDecode_attachedBytes c s).completes
    (holdsPosition_of_unbounded unbounded _)
  rw [attachedBytes_length] at run
  rw [stepBound, Nat.add_comm, steps_succ (step_of_accepted_start accepts port admits)]
  exact ⟨t, run, done⟩

end Sys2Proof.Laws
end

section
/-! The host's side around a decode (spec/10_state.md R36, R41, R189; spec/92_eei_decisions.md D15): the invariants
after power-on, which STARTs are refused for their `LEN`, and the wait in `IDLE` and `DONE`. -/

namespace Sys2Proof.Laws

open Sys2Proof.Machine Sys2Proof.Safety

/-! ### The invariants in `IDLE` -/

theorem runsInv_of_idle {s : State} (hp : s.phase = .idle) : RunsInv s ↔ s.runs = [] := by
  simp only [RunsInv, hp]

theorem outInv_of_idle {s : State} (hp : s.phase = .idle) : OutInv s ↔ s.out = [] := by
  simp only [OutInv, hp]

theorem expandInv_of_idle {s : State} (hp : s.phase = .idle) : ExpandInv s := by
  simp only [ExpandInv, hp]

/-- A buffer of length 0 has no byte to miss (assumption 3). -/
theorem bufferInv_of_len_zero {s : State} (canonical : memoryWf s.buf = true) (empty : s.len = 0) :
    BufferInv s :=
  ⟨canonical, fun a below => absurd (empty ▸ below) (Nat.not_lt_zero a)⟩

/-- Settles O2: power-on is in `IDLE` with `RUNS` and `OUT` empty, and its buffer has length 0. -/
theorem resetMeetsInvariants : Obligations.ResetMeetsInvariants := by
  obtain ⟨idle, noRuns, noOut, _⟩ := resetIsIdleAndEmpty
  have cursor : CursorInv State.reset := rfl
  exact ⟨cursor, bufferInv_of_len_zero memoryWf_reset rfl, (runsInv_of_idle idle).mpr noRuns,
    (outInv_of_idle idle).mpr noOut, expandInv_of_idle idle⟩

/-! ### The bound on LEN -/

theorem admitsLen_of_bound {cfg : Config} {m : Nat} (bound : cfg.lenMax = some m) (len : Nat) :
    cfg.admitsLen len = true ↔ len ≤ m := by
  simp only [Config.admitsLen, bound, decide_eq_true_iff]

/-- Accepting a START is refused exactly for a length that the instance does not admit (D15). -/
theorem acceptStart_refused_iff {c : StartCommand} {s : State} :
    acceptStart c s = .refused .bufferTooLong ↔ ¬ s.cfg.admitsLen c.len = true := by
  rw [acceptStart]
  split_ifs with admits <;> simp [admits]

/-- Settles O5: the step is the START's acceptance, and a bounded instance admits the lengths up to its bound. -/
theorem startBeyondLenMaxIsRefused : Obligations.StartBeyondLenMaxIsRefused := by
  intro s c m accepts port bound
  rw [step_of_start accepts port, acceptStart_refused_iff, admitsLen_of_bound bound, Nat.not_le]

/-! ### Waiting for a START -/

/-- Settles O6: neither of the two phases that accept a START has a row without one. -/
theorem idleAndDoneWait : Obligations.IdleAndDoneWait := by
  intro s accepts noStart
  rcases startable_iff.mp accepts with hp | hp <;> simp only [step, machineStep, noStart, decoderStep, hp]

end Sys2Proof.Laws
end
